-- ==== Sys2Proof/Config.lean ====
section
/-! DEFINITION. Config.lean: the parameters of the block (00_scope.md R6 to R9). The spec says they are the whole
configuration; each is a constant here, at the value the spec gives this hardware. There are no free values: the
spec states every value a step can produce (40_fetch_decode_execute.md R109). -/

namespace Sys2Proof.Config

/-- `BASE_MEM_SIZE`: the cells the loader may fill, and the program region's size (R6, R7). -/
abbrev baseMemSize : Nat := 256

/-- `MEM_SIZE`: the memory every instruction sees, twice the base capacity (R6, R7). -/
abbrev memSize : Nat := 2 * baseMemSize

/-- `CELL_BITS`: the width of a memory cell (R6). -/
abbrev cellBits : Nat := 8

/-- `NUM_REGS`: the number of register slots (R6). -/
abbrev numRegs : Nat := 8

/-- `SP_INDEX`: the slot that is the stack pointer (R6, 10_state.md R21). -/
abbrev spIndex : Nat := 7

/-- `SP_SENTINEL`: the stack pointer's value after `reset` (R6, 70_reset_and_hazards.md R240). -/
abbrev spSentinel : Nat := 0xF4

/-- `REG_BITS`: the width of every register and of the program counter. The spec takes 32 and admits any value of
10 or more (R8; its decision D1; log entry 7). -/
abbrev regBits : Nat := 32

/-- The two behaviours of the ADD opcode (R9): the encoded registers, or the reference defect (always `R0 + R0`). -/
inductive AddOperandMode where
  | encoded
  | referenceR0
deriving DecidableEq, Repr

/-- `ADD_OPERAND_MODE`: the spec takes `ENCODED` for this hardware (R9; its decision D4; log entry 7). The other
mode is modelled beside it, in `Machine.addIn`. -/
abbrev addOperandMode : AddOperandMode := .encoded

end Sys2Proof.Config
end

