-- ==== Sys2Proof/Word.lean ====
section
/-! DEFINITION. Word.lean: the machine's bit-vector types and the type of register indices. Every value is unsigned
(00_scope.md R10); arithmetic is done on naturals and narrowed where a value is stored. -/

namespace Sys2Proof

/-- A memory cell, and a byte of an instruction (10_state.md R35). -/
abbrev Byte := BitVec Config.cellBits

/-- The contents of a register or of the program counter (10_state.md R20, R25). -/
abbrev Word := BitVec Config.regBits

/-- The index of a register slot, 0 to 7 (10_state.md R20). -/
abbrev Reg := Fin Config.numRegs

/-- Slot 7, the stack pointer `SP` (10_state.md R21). -/
abbrev Reg.sp : Reg := ⟨Config.spIndex, by decide⟩

/-- Slot 0, which ADD reads and writes in `REFERENCE_R0` mode (41_alu.md R131). -/
abbrev Reg.r0 : Reg := ⟨0, by decide⟩

/-- The operand byte that names a register: the whole byte is the index (30_encoding.md R72). -/
def Reg.field (r : Reg) : Byte := BitVec.ofNat Config.cellBits r.val

end Sys2Proof
end

