-- ==== Sys2Proof/Syntax.lean ====
section
/-! DEFINITION. Syntax.lean: the instruction set, one constructor per row of spec/opcode_table.json
(30_encoding.md R75), with its tags and formats. A register field is the whole operand byte (R72), so an
instruction with a field of 8 or more can be written down: WellFormed.lean says which fields are valid. -/

namespace Sys2Proof

/-- An instruction with its operand bytes, in byte order (30_encoding.md R70, R71). -/
inductive Instr where
  | halt
  | ret
  | push (ra : Byte)
  | pop (ra : Byte)
  | printRegister (ra : Byte)
  | call (ra : Byte)
  | jump (ra : Byte)
  | jumpIfEqual (ra : Byte)
  | jumpIfNotEqual (ra : Byte)
  | loadImmediate (rd : Byte) (imm8 : Byte)
  | add (ra : Byte) (rb : Byte)
  | multiply (ra : Byte) (rb : Byte)
  | compare (ra : Byte) (rb : Byte)
deriving DecidableEq, Repr

/-- The enumerated instruction tag the opcode byte selects (30_encoding.md R76). -/
inductive Tag where
  | halt
  | ret
  | push
  | pop
  | printRegister
  | call
  | jump
  | jumpIfEqual
  | jumpIfNotEqual
  | loadImmediate
  | add
  | multiply
  | compare
deriving DecidableEq, Repr

/-- The four instruction formats (30_encoding.md R71). -/
inductive Format where
  | n
  | r
  | rr
  | ri
deriving DecidableEq, Repr

/-- The tag of an instruction. -/
def Instr.tag : Instr → Tag
  | .halt => .halt
  | .ret => .ret
  | .push _ => .push
  | .pop _ => .pop
  | .printRegister _ => .printRegister
  | .call _ => .call
  | .jump _ => .jump
  | .jumpIfEqual _ => .jumpIfEqual
  | .jumpIfNotEqual _ => .jumpIfNotEqual
  | .loadImmediate _ _ => .loadImmediate
  | .add _ _ => .add
  | .multiply _ _ => .multiply
  | .compare _ _ => .compare

/-- The three bytes a step reads at `pc`, `pc + 1` and `pc + 2` (40_fetch_decode_execute.md R101). -/
structure Window where
  op : Byte
  opA : Byte
  opB : Byte
deriving DecidableEq, Repr

/-- The window's bytes, in address order. -/
def Window.bytes (w : Window) : List Byte := [w.op, w.opA, w.opB]

end Sys2Proof
end

