-- ==== Sys2Proof/WellFormed.lean ====
section
/-! DEFINITION. WellFormed.lean: which instruction terms spell an instruction. The one check is that every register
field is 7 or less (30_encoding.md R72, R79); the immediate is valid at every value (R79). -/

namespace Sys2Proof

/-- The register fields of an instruction, in byte order (30_encoding.md R71). -/
def Instr.regFields : Instr → List Byte
  | .halt => []
  | .ret => []
  | .push ra => [ra]
  | .pop ra => [ra]
  | .printRegister ra => [ra]
  | .call ra => [ra]
  | .jump ra => [ra]
  | .jumpIfEqual ra => [ra]
  | .jumpIfNotEqual ra => [ra]
  | .loadImmediate rd _ => [rd]
  | .add ra rb => [ra, rb]
  | .multiply ra rb => [ra, rb]
  | .compare ra rb => [ra, rb]

/-- Every register field names a slot of the register file (30_encoding.md R72). -/
def Instr.wf (i : Instr) : Bool := i.regFields.all fun f => decide (f.toNat < Config.numRegs)

end Sys2Proof
end

