-- ==== Sys2Proof/Decode.lean ====
section
/-! DEFINITION. Decode.lean: the opcode map, the decoder and the encoder (30_encoding.md; 40_fetch_decode_execute.md
R102 to R104). The machine always reads a window of three bytes, so the decoder's argument is a window; it is total
on any three bytes and rejects by name. -/

namespace Sys2Proof

/-- Why a window spells no instruction: the opcode is none of the 13 (30_encoding.md R78), or a register field is 8
or more (R79). -/
inductive DecodeError where
  | invalidOpcode (op : Byte)
  | registerOutOfRange (field : Byte)
deriving DecidableEq, Repr

/-- A row of the opcode map: opcode byte, tag, format. -/
structure OpcodeRow where
  opcode : Byte
  tag : Tag
  format : Format
deriving DecidableEq, Repr

/-- The opcode map, Table 1 (30_encoding.md R75), in its order. -/
def opcodeTable : List OpcodeRow :=
  [⟨0x01, .halt, .n⟩,
   ⟨0x11, .ret, .n⟩,
   ⟨0x45, .push, .r⟩,
   ⟨0x46, .pop, .r⟩,
   ⟨0x47, .printRegister, .r⟩,
   ⟨0x50, .call, .r⟩] ++
  [⟨0x54, .jump, .r⟩,
   ⟨0x55, .jumpIfEqual, .r⟩,
   ⟨0x56, .jumpIfNotEqual, .r⟩,
   ⟨0x82, .loadImmediate, .ri⟩,
   ⟨0xA0, .add, .rr⟩,
   ⟨0xA2, .multiply, .rr⟩,
   ⟨0xA7, .compare, .rr⟩]

/-- The whole opcode byte is matched against the table, and no sub-field of it is decoded (30_encoding.md R76). -/
def lookupOpcode (op : Byte) : Option Tag :=
  (opcodeTable.find? fun row => row.opcode == op).map OpcodeRow.tag

/-- Operand assignment by the matched opcode's format (40_fetch_decode_execute.md R103). -/
def assemble (t : Tag) (opA opB : Byte) : Instr :=
  match t with
  | .halt => .halt
  | .ret => .ret
  | .push => .push opA
  | .pop => .pop opA
  | .printRegister => .printRegister opA
  | .call => .call opA
  | .jump => .jump opA
  | .jumpIfEqual => .jumpIfEqual opA
  | .jumpIfNotEqual => .jumpIfNotEqual opA
  | .loadImmediate => .loadImmediate opA opB
  | .add => .add opA opB
  | .multiply => .multiply opA opB
  | .compare => .compare opA opB

/-- The first register field of 8 or more, in byte order (40_fetch_decode_execute.md R104). -/
def firstBadField (fields : List Byte) : Option Byte :=
  fields.find? fun f => decide (Config.numRegs ≤ f.toNat)

/-- Decode a fetch window: opcode, operand assignment, register operand check (40_fetch_decode_execute.md R102 to
R104, in the order of R216). -/
def decode (w : Window) : Except DecodeError Instr :=
  match lookupOpcode w.op with
  | none => .error (.invalidOpcode w.op)
  | some t =>
    match firstBadField (assemble t w.opA w.opB).regFields with
    | some f => .error (.registerOutOfRange f)
    | none => .ok (assemble t w.opA w.opB)

/-- The opcode byte of a tag (30_encoding.md R75). -/
def Tag.opcode : Tag → Byte
  | .halt => 1
  | .ret => 17
  | .push => 69
  | .pop => 70
  | .printRegister => 71
  | .call => 80
  | .jump => 84
  | .jumpIfEqual => 85
  | .jumpIfNotEqual => 86
  | .loadImmediate => 130
  | .add => 160
  | .multiply => 162
  | .compare => 167

/-- The format of a tag (30_encoding.md R71). -/
def Tag.format : Tag → Format
  | .halt | .ret => .n
  | .push | .pop | .printRegister | .call | .jump | .jumpIfEqual | .jumpIfNotEqual => .r
  | .loadImmediate => .ri
  | .add | .multiply | .compare => .rr

/-- The bytes an instruction of a format occupies (30_encoding.md R71). -/
def Format.width : Format → Nat
  | .n => 1
  | .r => 2
  | .rr => 3
  | .ri => 3

/-- The bytes an instruction occupies, fixed by its opcode (30_encoding.md R75, R80). -/
def Instr.width (i : Instr) : Nat := i.tag.format.width

/-- The bytes of an instruction, at ascending addresses (30_encoding.md R70, R71, R83). -/
def encode (i : Instr) : List Byte :=
  match i with
  | .halt => [Tag.halt.opcode]
  | .ret => [Tag.ret.opcode]
  | .push ra => [Tag.push.opcode, ra]
  | .pop ra => [Tag.pop.opcode, ra]
  | .printRegister ra => [Tag.printRegister.opcode, ra]
  | .call ra => [Tag.call.opcode, ra]
  | .jump ra => [Tag.jump.opcode, ra]
  | .jumpIfEqual ra => [Tag.jumpIfEqual.opcode, ra]
  | .jumpIfNotEqual ra => [Tag.jumpIfNotEqual.opcode, ra]
  | .loadImmediate rd imm8 => [Tag.loadImmediate.opcode, rd, imm8]
  | .add ra rb => [Tag.add.opcode, ra, rb]
  | .multiply ra rb => [Tag.multiply.opcode, ra, rb]
  | .compare ra rb => [Tag.compare.opcode, ra, rb]

/-- The window of an instruction whose bits are `w`, numbered as spec/opcode_table.json numbers them: the first byte
holds bits 7 to 0, the next byte the next eight. The bits at `nbits` and above are 0. -/
def windowOfTableWord (nbits w : Nat) : Window :=
  let v := w % 2 ^ nbits
  ⟨BitVec.ofNat 8 v, BitVec.ofNat 8 (v / 256), BitVec.ofNat 8 (v / 65536)⟩

/-- What the decoder reads from that instruction. -/
def decodeTableWord (nbits w : Nat) : Option Instr :=
  (decode (windowOfTableWord nbits w)).toOption

end Sys2Proof
end

