-- ==== Sys2Proof/Machine/State.lean ====
section
/-! DEFINITION. Machine/State.lean: the machine's state as plain data, the reasons a step can stop, and the state
after reset (10_state.md R39 lists the state whole; 70_reset_and_hazards.md R240 is reset). -/

namespace Sys2Proof.Machine

/-- The run status (10_state.md R32). -/
inductive Status where
  | loading
  | running
  | halted
  | faulted
deriving DecidableEq, Repr

/-- The seven fault kinds (60_exceptions.md R210). -/
inductive FaultKind where
  | invalidOpcode
  | outOfBoundsAccess
  | stackUnderflow
  | stackOverflow
  | unsupportedOperation
  | valueOutOfRange
  | arithmeticOverflow
deriving DecidableEq, Repr

/-- The space an `OutOfBoundsAccess` addressed (60_exceptions.md R210; 90_conflicts.md C9). -/
inductive Space where
  | memory
  | register
deriving DecidableEq, Repr

/-- The `detail` of a fault record, by what its kind records (60_exceptions.md R210; log entry 8). -/
inductive FaultDetail where
  /-- The opcode byte (`InvalidOpcode`), or the ALU operation (`UnsupportedOperation`). -/
  | opcode (op : Byte)
  /-- `(memory, address)` or `(register, index)` (`OutOfBoundsAccess`). -/
  | access (space : Space) (index : Nat)
  /-- A value: of `SP` (the stack kinds), one that does not fit a cell, or an exact result that does not fit a register. -/
  | value (v : Nat)
deriving DecidableEq, Repr

/-- The fault record (10_state.md R33). -/
structure FaultRecord where
  kind : FaultKind
  code : Nat
  fpc : Word
  fop : Option Byte
  detail : FaultDetail
deriving DecidableEq, Repr

/-- What a rule raises: `raise Kind(info)` (00_scope.md R11), one constructor per kind with what it records
(60_exceptions.md R210). -/
inductive Cause where
  | invalidOpcode (op : Byte)
  | outOfBoundsAccess (space : Space) (index : Nat)
  | stackUnderflow (sp : Nat)
  | stackOverflow (sp : Nat)
  | unsupportedOperation (op : Byte)
  | valueOutOfRange (v : Nat)
  | arithmeticOverflow (r : Nat)
deriving DecidableEq, Repr

/-- Memory as the listed cells: addresses strictly rising, no cell equal to what an unlisted address reads as
(`Memory.wf` in Machine/Ops.lean). -/
abbrev Memory := List Host.Cell

/-- The machine's state (10_state.md R39). -/
structure State where
  /-- `x[0]` to `x[7]`; slot 7 is `SP` (R20, R21). -/
  regs : Vector Word Config.numRegs
  /-- The program counter (R25). -/
  pc : Word
  /-- `E`, the equal flag (R27). -/
  e : Bool
  /-- `L`, the less-than flag (R27). -/
  l : Bool
  /-- `G`, the greater-than flag (R27). -/
  g : Bool
  /-- `M` (R35). -/
  mem : Memory
  /-- The run status (R32). -/
  status : Status
  /-- The fault record, present in `FAULTED` only (R33). -/
  fault : Option FaultRecord
  /-- The output stream, first emitted first (R34). -/
  out : List Nat
deriving DecidableEq, Repr

/-- Reasons for which the model itself stops with a fault. There are none, so this type has no constructor: every
fault of the spec's taxonomy has an entry the spec describes (60_exceptions.md R214), and is a NEXT state with status
`FAULTED` (log entry 1). Safe: nothing is stopped that the spec lets go on. -/
inductive Fault where
deriving DecidableEq, Repr

/-- Reasons for which an operation does not take place. Each but the first is a refusal the spec itself states, with
no change of state. -/
inductive Refusal where
  /-- Raised by `exec`'s arm of an instruction that has no meaning yet. No arm raises it. Safe. -/
  | notModelled (mnemonic : String)
  /-- Raised by `step` when the status is not `RUNNING`: no step exists there (40_fetch_decode_execute.md R100;
  93_implementation_defined.md S14; log entry 2). Safe: the spec has the machine do nothing. -/
  | noStep (status : Status)
  /-- Raised by the host's `load` when it is not admitted (70_reset_and_hazards.md R242). Safe: the spec refuses it. -/
  | loadNotAdmitted
  /-- Raised by the host's `start` in a status other than `LOADING` (70_reset_and_hazards.md R246). Safe: the spec
  refuses it. -/
  | startNotAdmitted
deriving DecidableEq, Repr

/-- What a meaning answers. -/
abbrev Result := Host.Outcome State Fault Refusal

/-- The state after `reset` (70_reset_and_hazards.md R240; 10_state.md R39). Memory lists nothing: every cell reads 0. -/
def State.reset : State :=
  { regs := #v[0, 0, 0, 0, 0, 0, 0, BitVec.ofNat Config.regBits Config.spSentinel]
    pc := 0
    e := false
    l := false
    g := false
    mem := []
    status := .loading
    fault := none
    out := [] }

end Sys2Proof.Machine
end

