-- ==== Sys2Proof/Machine/Ops.lean ====
section
/-! DEFINITION. Machine/Ops.lean: the named operations over memory, registers, the program counter, the output stream
and the run status; taking a fault, as one shared operation; the fetch; the stack's two accesses; the ALU. -/

namespace Sys2Proof.Machine

/-! Memory as canonical data. -/

/-- What an address that is not listed reads as: 0. Construction zero-fills the base capacity, the loader leaves 0
beyond the image, and `start` zero-fills the rest (70_reset_and_hazards.md R240, R243, R245; log entry 4). -/
def Memory.unlisted : Byte := 0

/-- The byte at an address. -/
def Memory.read : Memory → Nat → Byte
  | [], _ => Memory.unlisted
  | (b, v) :: m, a => if b = a then v else Memory.read m a

/-- The memory with an address no longer listed. -/
def Memory.erase (m : Memory) (a : Nat) : Memory := m.filter fun c => decide (c.1 ≠ a)

/-- List a cell before the first cell of a higher address. -/
def Memory.insert : Memory → Nat → Byte → Memory
  | [], a, v => [(a, v)]
  | (b, w) :: m, a, v => if a < b then (a, v) :: (b, w) :: m else (b, w) :: Memory.insert m a v

/-- Write a byte. Writing what an unlisted address reads as removes the entry. -/
def Memory.write (m : Memory) (a : Nat) (v : Byte) : Memory :=
  if v = Memory.unlisted then Memory.erase m a else Memory.insert (Memory.erase m a) a v

/-- Cells `lo` to `hi - 1` become what an unlisted address reads as. -/
def Memory.clear (m : Memory) (lo hi : Nat) : Memory :=
  m.filter fun c => !(decide (lo ≤ c.1) && decide (c.1 < hi))

/-- Every address of the list is above `a`. -/
def Memory.above (a : Nat) (m : Memory) : Bool := m.all fun c => decide (a < c.1)

/-- The canonical form: addresses strictly rising, no entry equal to what an unlisted address reads as. -/
def Memory.wf : Memory → Bool
  | [] => true
  | (a, v) :: m => decide (v ≠ Memory.unlisted) && Memory.above a m && Memory.wf m

/-- Every listed address is below `hi`. -/
def Memory.below (hi : Nat) (m : Memory) : Bool := m.all fun c => decide (c.1 < hi)

/-! Registers, program counter, flags, output. -/

/-- `x[r]` (00_scope.md R11). -/
def State.reg (s : State) (r : Reg) : Word := s.regs[r]

/-- `x[r] <- v` (00_scope.md R11). -/
def State.setReg (s : State) (r : Reg) (v : Word) : State := { s with regs := s.regs.set r v }

/-- `SP`, the name of `x[7]`, as a natural (00_scope.md R11). -/
def State.sp (s : State) : Nat := (s.reg .sp).toNat

/-- `SP <- n`. -/
def State.setSp (s : State) (n : Nat) : State := s.setReg .sp (BitVec.ofNat Config.regBits n)

/-- `pc <- target`. -/
def State.setPc (s : State) (target : Word) : State := { s with pc := target }

/-- `pc <- pc + n`. A fetch that succeeds has `pc + 2 < MEM_SIZE`, so the sum is exact in every step
(40_fetch_decode_execute.md R106; log entry 6). -/
def State.advance (s : State) (n : Nat) : State := s.setPc (BitVec.ofNat Config.regBits (s.pc.toNat + n))

/-- `E <- e; L <- l; G <- g`. -/
def State.setFlags (s : State) (e l g : Bool) : State := { s with e := e, l := l, g := g }

/-- `emit(v)`: append to the output stream (00_scope.md R11; 10_state.md R34). -/
def State.emit (s : State) (v : Nat) : State := { s with out := s.out ++ [v] }

/-- `M <- m`. -/
def State.setMem (s : State) (m : Memory) : State := { s with mem := m }

/-- `status <- st`. -/
def State.setStatus (s : State) (st : Status) : State := { s with status := st }

/-! Taking a fault. -/

/-- The numeric code of a kind (60_exceptions.md R210). -/
def FaultKind.code : FaultKind → Nat
  | .invalidOpcode => 1
  | .outOfBoundsAccess => 2
  | .stackUnderflow => 3
  | .stackOverflow => 4
  | .unsupportedOperation => 5
  | .valueOutOfRange => 6
  | .arithmeticOverflow => 7

/-- The kind a cause belongs to (60_exceptions.md R210). -/
def Cause.kind : Cause → FaultKind
  | .invalidOpcode _ => .invalidOpcode
  | .outOfBoundsAccess _ _ => .outOfBoundsAccess
  | .stackUnderflow _ => .stackUnderflow
  | .stackOverflow _ => .stackOverflow
  | .unsupportedOperation _ => .unsupportedOperation
  | .valueOutOfRange _ => .valueOutOfRange
  | .arithmeticOverflow _ => .arithmeticOverflow

/-- What the record's `detail` holds for a cause (60_exceptions.md R210). -/
def Cause.detail : Cause → FaultDetail
  | .invalidOpcode op => .opcode op
  | .outOfBoundsAccess space index => .access space index
  | .stackUnderflow sp => .value sp
  | .stackOverflow sp => .value sp
  | .unsupportedOperation op => .opcode op
  | .valueOutOfRange v => .value v
  | .arithmeticOverflow r => .value r

/-- The opcode byte at `pc`, or none when `pc` is out of range (60_exceptions.md R214: `fop`). -/
def State.opcodeAtPc (s : State) : Option Byte :=
  if s.pc.toNat < Config.memSize then some (s.mem.read s.pc.toNat) else none

/-- The record `raise` leaves (60_exceptions.md R214). -/
def faultRecord (c : Cause) (s : State) : FaultRecord :=
  { kind := c.kind, code := c.kind.code, fpc := s.pc, fop := s.opcodeAtPc, detail := c.detail }

/-- Taking a fault: `status <- FAULTED`, the record is written, and nothing else happens (60_exceptions.md R214).
There is no return from a fault (R217). -/
def raise (c : Cause) (s : State) : State :=
  { s with status := .faulted, fault := some (faultRecord c s) }

/-- The end of an instruction: the state its rule built, or the fault it raised, taken on the state the instruction
started in, so that a raised fault leaves none of the instruction's writes (00_scope.md R12; 60_exceptions.md R215). -/
def settle (s : State) : Except Cause State → Result
  | .ok t => .next t
  | .error c => .next (raise c s)

/-- `if cond: raise c`. -/
def raiseIf (cond : Prop) [Decidable cond] (c : Cause) : Except Cause Unit :=
  if cond then .error c else .ok ()

/-! Memory accesses of the core. -/

/-- `MemRead(addr, 1)` (20_memory.md R50). -/
def memRead (s : State) (addr : Nat) : Except Cause Byte := do
  raiseIf (Config.memSize ≤ addr) (.outOfBoundsAccess .memory addr)
  return s.mem.read addr

/-- `MemWrite(addr, 1, v)` (20_memory.md R51). -/
def memWrite (s : State) (addr v : Nat) : Except Cause State := do
  raiseIf (Config.memSize ≤ addr) (.outOfBoundsAccess .memory addr)
  raiseIf (2 ^ Config.cellBits ≤ v) (.valueOutOfRange v)
  return s.setMem (s.mem.write addr (BitVec.ofNat Config.cellBits v))

/-- The fetch: three bytes, whatever the opcode, each address checked in order (40_fetch_decode_execute.md R101). -/
def fetchWindow (s : State) : Except Cause Window := do
  let op ← memRead s s.pc.toNat
  let opA ← memRead s (s.pc.toNat + 1)
  let opB ← memRead s (s.pc.toNat + 2)
  return ⟨op, opA, opB⟩

/-- The cause a rejected decoding raises (40_fetch_decode_execute.md R102, R104). -/
def decodeCause : DecodeError → Cause
  | .invalidOpcode op => .invalidOpcode op
  | .registerOutOfRange f => .outOfBoundsAccess .register f.toNat

/-- Fetch, decode and operand check, in the order of 60_exceptions.md R216 (40_fetch_decode_execute.md R101 to R104). -/
def fetchDecode (s : State) : Except Cause Instr := do
  let w ← fetchWindow s
  match decode w with
  | .ok i => return i
  | .error e => .error (decodeCause e)

/-! The stack (42_stack.md). -/

/-- The address a PUSH or CALL writes, `SP - 1`, after the two address checks (42_stack.md R150, R152). -/
def pushSlot (s : State) : Except Cause Nat := do
  raiseIf (s.sp = 0) (.stackOverflow s.sp)
  raiseIf (Config.memSize ≤ s.sp - 1) (.outOfBoundsAccess .memory (s.sp - 1))
  return s.sp - 1

/-- The byte a POP or RETURN reads, `M[SP]`, after the underflow check (42_stack.md R151, R153). -/
def popByte (s : State) : Except Cause Byte := do
  raiseIf (Config.memSize ≤ s.sp) (.stackUnderflow s.sp)
  memRead s s.sp

/-! The ALU (41_alu.md). -/

/-- `apply(operation, a, b)`: the exact sum or product; any other operation fails (41_alu.md R130, R133). The
operation input is the opcode byte of the instruction that uses the ALU (log entry 9). -/
def aluApply (operation : Byte) (a b : Nat) : Except Cause Nat :=
  if operation = Tag.add.opcode then .ok (a + b)
  else if operation = Tag.multiply.opcode then .ok (a * b)
  else .error (.unsupportedOperation operation)

/-- An ALU result goes back to its register, if it fits (41_alu.md R133). -/
def writeResult (s : State) (r : Reg) (v : Nat) : Except Cause State := do
  raiseIf (2 ^ Config.regBits ≤ v) (.arithmeticOverflow v)
  return s.setReg r (BitVec.ofNat Config.regBits v)

/-- The ALU on two registers, its result in the first (41_alu.md R130). -/
def aluRegisters (operation : Byte) (s : State) (i j : Reg) : Except Cause State := do
  let r ← aluApply operation (s.reg i).toNat (s.reg j).toNat
  writeResult s i r

end Sys2Proof.Machine
end

