-- ==== Sys2Proof/Machine/Operands.lean ====
section
/-! DEFINITION. Machine/Operands.lean: the operand forms (30_encoding.md R72, R73): a register named by a whole byte,
and an immediate byte. Targets are never encoded in an instruction (R73). -/

namespace Sys2Proof.Machine

/-- The register a field names, or the fault a field of 8 or more raises (30_encoding.md R72;
40_fetch_decode_execute.md R104). `step` has made this check at decode; here it makes `exec` total (log entry 5). -/
def regOperand (f : Byte) : Except Cause Reg :=
  if h : f.toNat < Config.numRegs then .ok ⟨f.toNat, h⟩
  else .error (.outOfBoundsAccess .register f.toNat)

/-- `zext_REG_BITS(imm8)` (30_encoding.md R73). It also widens a byte read from memory. -/
def zext (v : Byte) : Word := BitVec.ofNat Config.regBits v.toNat

end Sys2Proof.Machine
end

