-- ==== Sys2Proof/Machine/Alu.lean ====
section
/-! DEFINITION. Machine/Alu.lean: ADD and MULTIPLY (41_alu.md R131, R132). -/

namespace Sys2Proof.Machine

/-- ADD in either operand mode (R131). Both register fields are checked in both modes. -/
def addIn (mode : Config.AddOperandMode) (ra rb : Byte) (s : State) : Result :=
  settle s do
    let a ← regOperand ra
    let b ← regOperand rb
    let t ← match mode with
      | .encoded => aluRegisters Tag.add.opcode s a b
      | .referenceR0 => aluRegisters Tag.add.opcode s .r0 .r0
    return t.advance 3

/-- ADD (R131), in the mode of this hardware. -/
def execAdd (ra rb : Byte) (s : State) : Result := addIn Config.addOperandMode ra rb s

/-- MULTIPLY (R132). -/
def execMultiply (ra rb : Byte) (s : State) : Result :=
  settle s do
    let a ← regOperand ra
    let b ← regOperand rb
    let t ← aluRegisters Tag.multiply.opcode s a b
    return t.advance 3

end Sys2Proof.Machine
end

