-- ==== Sys2Proof/Machine/Flags.lean ====
section
/-! DEFINITION. Machine/Flags.lean: the flag computations. COMPARE is the only instruction that writes the flags
(10_state.md R27, R29), and it writes all three (43_compare_branch.md R180). -/

namespace Sys2Proof.Machine

/-- `E <- bool(a = b); L <- bool(a < b); G <- bool(a > b)`, unsigned (43_compare_branch.md R180). -/
def State.compareFlags (s : State) (a b : Nat) : State :=
  s.setFlags (decide (a = b)) (decide (a < b)) (decide (b < a))

end Sys2Proof.Machine
end

