-- ==== Sys2Proof/Machine/Branch.lean ====
section
/-! DEFINITION. Machine/Branch.lean: COMPARE and the jumps (43_compare_branch.md R180 to R183). -/

namespace Sys2Proof.Machine

/-- COMPARE (R180): writes all three flags. -/
def execCompare (ra rb : Byte) (s : State) : Result :=
  settle s do
    let a ← regOperand ra
    let b ← regOperand rb
    return (s.compareFlags (s.reg a).toNat (s.reg b).toNat).advance 3

/-- A jump to `x[ra]` when `taken`, else on to the next instruction. The field is checked either way (R182, R183). -/
def jumpWhen (taken : Bool) (ra : Byte) (s : State) : Except Cause State := do
  let a ← regOperand ra
  return if taken then s.setPc (s.reg a) else s.advance 2

/-- JUMP (R181). -/
def execJump (ra : Byte) (s : State) : Result := settle s (jumpWhen true ra s)

/-- JUMP_IF_EQUAL (R182). -/
def execJumpIfEqual (ra : Byte) (s : State) : Result := settle s (jumpWhen s.e ra s)

/-- JUMP_IF_NOT_EQUAL (R183). -/
def execJumpIfNotEqual (ra : Byte) (s : State) : Result := settle s (jumpWhen (!s.e) ra s)

end Sys2Proof.Machine
end

