-- ==== Sys2Proof/Machine/Loop.lean ====
section
/-! DEFINITION. Machine/Loop.lean: the instructions of the loop itself, HALT, LOAD_IMMEDIATE and PRINT_REGISTER
(40_fetch_decode_execute.md R110 to R112). -/

namespace Sys2Proof.Machine

/-- HALT (R110): the run stops; `pc` stays at the HALT's own address. -/
def execHalt (s : State) : Result := .next (s.setStatus .halted)

/-- LOAD_IMMEDIATE (R111). -/
def execLoadImmediate (rd imm8 : Byte) (s : State) : Result :=
  settle s do
    let d ← regOperand rd
    return (s.setReg d (zext imm8)).advance 3

/-- PRINT_REGISTER (R112). -/
def execPrintRegister (ra : Byte) (s : State) : Result :=
  settle s do
    let a ← regOperand ra
    return (s.emit (s.reg a).toNat).advance 2

end Sys2Proof.Machine
end

