-- ==== Sys2Proof/Machine/Stack.lean ====
section
/-! DEFINITION. Machine/Stack.lean: PUSH, POP, CALL and RETURN (42_stack.md R150 to R153). The effects of Table 1 run
in sequence (00_scope.md R12): a PUSH or CALL reads its register after `SP -= 1`, a POP increments `SP` after it
wrote its register. -/

namespace Sys2Proof.Machine

/-- PUSH (R150). -/
def execPush (ra : Byte) (s : State) : Result :=
  settle s do
    let a ← regOperand ra
    let slot ← pushSlot s
    let s1 := s.setSp slot
    let s2 ← memWrite s1 slot (s1.reg a).toNat
    return s2.advance 2

/-- POP (R151). -/
def execPop (ra : Byte) (s : State) : Result :=
  settle s do
    let a ← regOperand ra
    let v ← popByte s
    let s1 := s.setReg a (zext v)
    return (s1.setSp (s1.sp + 1)).advance 2

/-- CALL (R152). The return address is the CALL's own address plus its width. -/
def execCall (ra : Byte) (s : State) : Result :=
  settle s do
    let a ← regOperand ra
    let slot ← pushSlot s
    let s1 := s.setSp slot
    let s2 ← memWrite s1 slot (s.pc.toNat + 2)
    return s2.setPc (s1.reg a)

/-- RETURN (R153). -/
def execReturn (s : State) : Result :=
  settle s do
    let t ← popByte s
    return (s.setSp (s.sp + 1)).setPc (zext t)

end Sys2Proof.Machine
end

