-- ==== Sys2Proof/Machine/Dispatch.lean ====
section
/-! DEFINITION. Machine/Dispatch.lean: the meaning of each instruction (40_fetch_decode_execute.md R105). -/

namespace Sys2Proof.Machine

/-- Execute one instruction, with `pc` at the instruction's own address (R105). -/
def exec (i : Instr) (s : State) : Host.Outcome State Fault Refusal :=
  match i with
  | .halt => Sys2Proof.Machine.execHalt s
  | .ret => Sys2Proof.Machine.execReturn s
  | .push ra => Sys2Proof.Machine.execPush ra s
  | .pop ra => Sys2Proof.Machine.execPop ra s
  | .printRegister ra => Sys2Proof.Machine.execPrintRegister ra s
  | .call ra => Sys2Proof.Machine.execCall ra s
  | .jump ra => Sys2Proof.Machine.execJump ra s
  | .jumpIfEqual ra => Sys2Proof.Machine.execJumpIfEqual ra s
  | .jumpIfNotEqual ra => Sys2Proof.Machine.execJumpIfNotEqual ra s
  | .loadImmediate rd imm8 => Sys2Proof.Machine.execLoadImmediate rd imm8 s
  | .add ra rb => Sys2Proof.Machine.execAdd ra rb s
  | .multiply ra rb => Sys2Proof.Machine.execMultiply ra rb s
  | .compare ra rb => Sys2Proof.Machine.execCompare ra rb s

end Sys2Proof.Machine
end

