-- ==== Sys2Proof/Machine/HostOps.lean ====
section
/-! DEFINITION. Machine/HostOps.lean: the host's operations other than `step` (00_scope.md R13;
70_reset_and_hazards.md R240 to R246). Each acts between steps, and a refused one changes nothing (log entry 10). -/

namespace Sys2Proof.Machine

/-- `reset`: construct the core, in any status, discarding all earlier state (R240). -/
def hostReset (_s : State) : State := State.reset

/-- `load(addr, byte)`: write one byte of the image, during `LOADING`, in the base capacity (R242). -/
def hostLoad (addr byte : Nat) (s : State) : Result :=
  if s.status = .loading ∧ addr < Config.baseMemSize ∧ byte < 2 ^ Config.cellBits then
    .next (s.setMem (s.mem.write addr (BitVec.ofNat Config.cellBits byte)))
  else .refused .loadNotAdmitted

/-- The load phase: one `load` per byte of the image, at consecutive addresses from `addr` on (R242), up to the first
that is refused. -/
def hostLoadImage : Nat → List Nat → State → Result
  | _, [], s => .next s
  | addr, byte :: rest, s =>
    match hostLoad addr byte s with
    | .next t => hostLoadImage (addr + 1) rest t
    | .fault r => .fault r
    | .refused r => .refused r

/-- What `start` does: the new cells are zero-filled, `SP` is the new top address, the run begins (R245). -/
def startRun (s : State) : State :=
  ((s.setMem (s.mem.clear Config.baseMemSize Config.memSize)).setSp (Config.memSize - 1)).setStatus .running

/-- `start`: admitted only in `LOADING` (R245, R246). -/
def hostStart (s : State) : Result :=
  if s.status = .loading then .next (startRun s) else .refused .startNotAdmitted

/-! Placing an instruction where the next step fetches it. No operation of the machine (log entry 3). -/

/-- The state, made one in which a step exists: `LOADING` is left by `start`, a finished run is taken up again with no
fault record, and a run stays as it is (log entry 3). -/
def State.madeRunning (s : State) : State :=
  match s.status with
  | .loading => startRun s
  | .running => s
  | .halted => { s with status := .running, fault := none }
  | .faulted => { s with status := .running, fault := none }

/-- `pc`, moved to the entry point 0 (70_reset_and_hazards.md R247) only where the window at `pc` does not lie inside
memory. -/
def State.withFetchablePc (s : State) : State :=
  if s.pc.toNat + 2 < Config.memSize then s else s.setPc 0

/-- The three bytes of a window stored at `pc`, `pc + 1` and `pc + 2`. -/
def State.placeWindow (s : State) (w : Window) : State :=
  s.setMem (((s.mem.write s.pc.toNat w.op).write (s.pc.toNat + 1) w.opA).write (s.pc.toNat + 2) w.opB)

end Sys2Proof.Machine
end

