-- ==== Sys2Proof/Machine/Step.lean ====
section
/-! DEFINITION. Machine/Step.lean: one step of the core (40_fetch_decode_execute.md R100 to R108), and the placing of
an instruction where the next step fetches it. -/

namespace Sys2Proof.Machine

/-- One step while `RUNNING`: fetch, decode, operand check, execute (R108). -/
def runStep (s : State) : Result :=
  match fetchDecode s with
  | .error c => .next (raise c s)
  | .ok i => exec i s

/-- One step. No step exists in any status but `RUNNING` (R100). -/
def step (s : State) : Host.Outcome State Fault Refusal :=
  match s.status with
  | .running => runStep s
  | .loading => .refused (.noStep .loading)
  | .halted => .refused (.noStep .halted)
  | .faulted => .refused (.noStep .faulted)

/-- `s` with the instruction of bits `w` stored where `step` fetches its next instruction, running. All three window
bytes are written, the unused ones with 0. -/
def State.withFetchWord (s : State) (nbits w : Nat) : State :=
  (s.madeRunning.withFetchablePc).placeWindow (windowOfTableWord nbits w)

end Sys2Proof.Machine
end

