-- ==== Sys2Proof/Machine/Run.lean ====
section
/-! DEFINITION. Machine/Run.lean: a run, that is the sequence of steps from `start` until the status leaves `RUNNING`
(00_scope.md R14; 40_fetch_decode_execute.md R107). The core has no limit of its own: the fuel is the host's watchdog,
outside `step`. -/

namespace Sys2Proof.Machine

/-- How a run under fuel comes out. -/
inductive RunOutcome where
  /-- The run ended: HALT executed. The state is its result (70_reset_and_hazards.md R249). -/
  | halted (t : State)
  /-- The run ended: a fault was raised. -/
  | faulted (t : State)
  /-- The host's fuel was exhausted in the state `t`, in which the core is still running. This is an answer of the
  host's watchdog and no state of the core (R14). -/
  | outOfFuel (t : State)
  /-- There is no such run: an operation it begins with was refused. -/
  | refused (r : Refusal)
deriving DecidableEq, Repr

/-- The steps from `s` on, at most `fuel` of them, until the status leaves `RUNNING` (R14, R107). -/
def runUnder (fuel : Nat) (s : State) : RunOutcome :=
  match s.status with
  | .loading => .refused (.noStep .loading)
  | .halted => .halted s
  | .faulted => .faulted s
  | .running =>
    match fuel with
    | 0 => .outOfFuel s
    | fuel + 1 =>
      match step s with
      | .next t => runUnder fuel t
      | .fault f => nomatch f
      | .refused r => .refused r

/-- `start`, then the run (R14). -/
def hostRun (fuel : Nat) (s : State) : RunOutcome :=
  match hostStart s with
  | .next t => runUnder fuel t
  | .fault f => nomatch f
  | .refused r => .refused r

/-- The order of events of a whole run: `reset`, the image loaded from address 0 on, `start`, then steps until the
status leaves `RUNNING` (70_reset_and_hazards.md R248). -/
def hostRunImage (fuel : Nat) (image : List Nat) : RunOutcome :=
  match hostLoadImage 0 image State.reset with
  | .next s => hostRun fuel s
  | .fault f => nomatch f
  | .refused r => .refused r

end Sys2Proof.Machine
end

