-- ==== Sys2Proof/Safety.lean ====
section
/-! DEFINITION. Safety.lean: the terms claims are stated in. What a fault leaves, the frames (what is kept), the
invariant of the machine, the register access table of 10_state.md R23, the `pc` table of 40_fetch_decode_execute.md
R106, the host's operations as commands, and sequences of steps: of a given length, and without a COMPARE. -/

namespace Sys2Proof.Machine

/-! What is kept. -/

/-- Every register but the listed ones is unchanged. -/
def RegsKeptExcept (written : List Reg) (s t : State) : Prop := ∀ r, r ∉ written → t.reg r = s.reg r

/-- The three flags are unchanged. -/
def FlagsKept (s t : State) : Prop := t.e = s.e ∧ t.l = s.l ∧ t.g = s.g

/-- Every byte of memory reads as before. -/
def MemKept (s t : State) : Prop := ∀ a, t.mem.read a = s.mem.read a

/-- Every byte of memory but the one at `addr` reads as before. -/
def MemKeptExcept (addr : Nat) (s t : State) : Prop := ∀ a, a ≠ addr → t.mem.read a = s.mem.read a

/-- The run status and the fault record are unchanged. -/
def RunKept (s t : State) : Prop := t.status = s.status ∧ t.fault = s.fault

/-- The window at `pc` lies inside memory, so that a fetch succeeds (40_fetch_decode_execute.md R101). -/
def Fetchable (s : State) : Prop := s.pc.toNat + 2 < Config.memSize

/-- The window at `pc`. -/
def windowAt (s : State) : Window :=
  ⟨s.mem.read s.pc.toNat, s.mem.read (s.pc.toNat + 1), s.mem.read (s.pc.toNat + 2)⟩

/-- `pc` advances by `n`, exactly, wherever a step can execute (40_fetch_decode_execute.md R106). -/
def PcAdvances (n : Nat) (s t : State) : Prop := Fetchable s → t.pc.toNat = s.pc.toNat + n

/-! What a fault leaves. -/

/-- `t` is `s` after a fault of this kind, code and detail (60_exceptions.md R214, R215): the status is `FAULTED`, the
record names `pc` and the opcode byte there, and everything else is as it stood. -/
structure FaultedAs (kind : FaultKind) (code : Nat) (detail : FaultDetail) (s t : State) : Prop where
  status : t.status = .faulted
  record : t.fault = some
    { kind := kind
      code := code
      fpc := s.pc
      fop := if s.pc.toNat < Config.memSize then some (s.mem.read s.pc.toNat) else none
      detail := detail }
  pc : t.pc = s.pc
  regs : RegsKeptExcept [] s t
  flags : FlagsKept s t
  mem : MemKept s t
  out : t.out = s.out

/-- The fault of a register field of 8 or more (40_fetch_decode_execute.md R104). -/
def RegisterFieldFault (f : Byte) (s t : State) : Prop :=
  FaultedAs .outOfBoundsAccess 2 (.access .register f.toNat) s t

/-! The invariant. -/

/-- What holds of every state a host can bring the machine to. -/
structure State.Inv (s : State) : Prop where
  /-- Memory is in its canonical form. -/
  memWf : s.mem.wf = true
  /-- Memory has `MEM_SIZE` cells (10_state.md R35). -/
  memBelow : s.mem.below Config.memSize = true
  /-- Before `start`, only the base capacity exists and only the image differs from the state after `reset`
  (70_reset_and_hazards.md R240, R242). -/
  loadingFresh : s.status = .loading →
    s.mem.below Config.baseMemSize = true ∧ s = State.reset.setMem s.mem
  /-- The fault record is present in `FAULTED` only (10_state.md R33). -/
  faultIff : s.fault.isSome = true ↔ s.status = .faulted
  /-- The record names the `pc` the run stopped at, the opcode byte there, and a kind that can be raised, with its code
  (60_exceptions.md R210, R214, R215). -/
  faultExact : ∀ r, s.fault = some r →
    r.fpc = s.pc ∧ r.fop = s.opcodeAtPc ∧ r.code = r.kind.code ∧ r.kind ≠ .unsupportedOperation
  /-- A halted run stands at a HALT (40_fetch_decode_execute.md R110). -/
  haltedAtHalt : s.status = .halted → Fetchable s ∧ s.mem.read s.pc.toNat = Tag.halt.opcode
  /-- At most one flag is set: none before the first COMPARE, one after it (10_state.md R30; 43_compare_branch.md
  R180). -/
  flagsExclusive : ¬(s.e = true ∧ s.l = true) ∧ ¬(s.e = true ∧ s.g = true) ∧ ¬(s.l = true ∧ s.g = true)
  /-- Every emitted number is a register's value (40_fetch_decode_execute.md R112). -/
  outFits : ∀ v, v ∈ s.out → v < 2 ^ Config.regBits

/-! The register access table (10_state.md R23). -/

/-- The register a field names, if it names one. -/
def fieldReg (f : Byte) : List Reg :=
  if h : f.toNat < Config.numRegs then [⟨f.toNat, h⟩] else []

/-- The registers ADD reads and writes, by mode. -/
def addRegs (mode : Config.AddOperandMode) (ra rb : Byte) : List Reg × List Reg :=
  match mode with
  | .encoded => (fieldReg ra ++ fieldReg rb, fieldReg ra)
  | .referenceR0 => ([.r0], [.r0])

/-- The column "registers read" (R23); a conditional jump reads its register only when taken. -/
def regsRead (i : Instr) (s : State) : List Reg :=
  match i with
  | .halt => []
  | .ret => [.sp]
  | .push ra => fieldReg ra ++ [.sp]
  | .pop _ => [.sp]
  | .printRegister ra => fieldReg ra
  | .call ra => fieldReg ra ++ [.sp]
  | .jump ra => fieldReg ra
  | .jumpIfEqual ra => if s.e then fieldReg ra else []
  | .jumpIfNotEqual ra => if s.e then [] else fieldReg ra
  | .loadImmediate _ _ => []
  | .add ra rb => (addRegs Config.addOperandMode ra rb).1
  | .multiply ra rb => fieldReg ra ++ fieldReg rb
  | .compare ra rb => fieldReg ra ++ fieldReg rb

/-- The column "registers written" (R23). -/
def regsWritten (i : Instr) : List Reg :=
  match i with
  | .halt => []
  | .ret => [.sp]
  | .push _ => [.sp]
  | .pop ra => fieldReg ra ++ [.sp]
  | .printRegister _ => []
  | .call _ => [.sp]
  | .jump _ => []
  | .jumpIfEqual _ => []
  | .jumpIfNotEqual _ => []
  | .loadImmediate rd _ => fieldReg rd
  | .add ra rb => (addRegs Config.addOperandMode ra rb).2
  | .multiply ra _ => fieldReg ra
  | .compare _ _ => []

/-! The `pc` update (40_fetch_decode_execute.md R106). -/

/-- `pc` is the value of the register the field names. -/
def PcFromRegister (ra : Byte) (s : State) (pc : Nat) : Prop := ∃ a : Reg, ra = a.field ∧ pc = (s.reg a).toNat

/-- The column "new `pc`" of an instruction that did not fault. CALL's register is read after `SP` is decremented
(42_stack.md R152), and the byte a RETURN pops is the one at `SP`. -/
def PcAsTabled (i : Instr) (s : State) (pc : Nat) : Prop :=
  match i with
  | .halt => pc = s.pc.toNat
  | .ret => pc = (s.mem.read s.sp).toNat
  | .push _ => pc = s.pc.toNat + 2
  | .pop _ => pc = s.pc.toNat + 2
  | .printRegister _ => pc = s.pc.toNat + 2
  | .call ra => PcFromRegister ra (s.setSp (s.sp - 1)) pc
  | .jump ra => PcFromRegister ra s pc
  | .jumpIfEqual ra => if s.e then PcFromRegister ra s pc else pc = s.pc.toNat + 2
  | .jumpIfNotEqual ra => if s.e then pc = s.pc.toNat + 2 else PcFromRegister ra s pc
  | .loadImmediate _ _ => pc = s.pc.toNat + 3
  | .add _ _ => pc = s.pc.toNat + 3
  | .multiply _ _ => pc = s.pc.toNat + 3
  | .compare _ _ => pc = s.pc.toNat + 3

/-! The opcode map in numbers. -/

/-- The columns "decimal", "instruction" and "width" of Table 1 (30_encoding.md R75), written out once more, in
decimal, for the statement that the decoder follows them. -/
def tableOne : List (Nat × Tag × Nat) :=
  [(1, .halt, 1), (17, .ret, 1), (69, .push, 2), (70, .pop, 2), (71, .printRegister, 2), (80, .call, 2)] ++
  [(84, .jump, 2), (85, .jumpIfEqual, 2), (86, .jumpIfNotEqual, 2), (130, .loadImmediate, 3), (160, .add, 3)] ++
  [(162, .multiply, 3), (167, .compare, 3)]

/-! The host's operations, and runs. -/

/-- The host's four operations (00_scope.md R13). -/
inductive HostCommand where
  | reset
  | load (addr byte : Nat)
  | start
  | step
deriving DecidableEq, Repr

/-- The core's answer to a host operation. -/
def hostApply (c : HostCommand) (s : State) : Result :=
  match c with
  | .reset => .next (hostReset s)
  | .load addr byte => hostLoad addr byte s
  | .start => hostStart s
  | .step => step s

/-- `t` is reached from `s` by exactly `n` steps. -/
inductive StepsTo : Nat → State → State → Prop where
  | refl (s : State) : StepsTo 0 s s
  | step (n : Nat) (s s' t : State) (h : Machine.step s = .next s') (rest : StepsTo n s' t) : StepsTo (n + 1) s t

/-- `t` is reached from `s` by steps none of which executes a COMPARE. -/
inductive RunWithoutCompare : State → State → Prop where
  | refl (s : State) : RunWithoutCompare s s
  | step (s s' t : State) (h : Machine.step s = .next s') (hop : s.opcodeAtPc ≠ some Tag.compare.opcode)
      (rest : RunWithoutCompare s' t) : RunWithoutCompare s t

end Sys2Proof.Machine
end

