-- ==== Sys2Proof/Certificates/Slice0/Obligations.lean ====
section
/-! DEFINITION. Certificates/Slice0/Obligations.lean: the statements for the provers. Each says in its docstring which
rule of spec/ it follows. Where a clause rests on a decision the spec marks as its own (92_eei_decisions.md D<n>) or on
an entry of the model's assumption log, the docstring names it. A statement about an instruction holds of every state,
also of states no run reaches; `pc` clauses carry the fetch condition of R101, under which alone a step executes. -/

open Sys2Proof Sys2Proof.Machine

/-! Encoding. -/

/-- Decode and encode agree: a window that begins with the bytes of a well-formed instruction decodes to it, whatever
the unused window bytes are (30_encoding.md R71 to R75). -/
def Obligations.DecodeOfEncode : Prop :=
  ∀ (i : Instr) (w : Window), i.wf = true → encode i <+: w.bytes → decode w = .ok i

/-- What the decoder accepts is well-formed, and the window begins with its bytes (30_encoding.md R72, R76). -/
def Obligations.EncodeOfDecode : Prop :=
  ∀ (w : Window) (i : Instr), decode w = .ok i → i.wf = true ∧ encode i <+: w.bytes

/-- Words written out from the formats and the opcode map (30_encoding.md R71, R75, R85), one or more per family. -/
def Obligations.WordsDecodeToTheirInstructions : Prop :=
  decode ⟨0x82, 0x00, 0x08⟩ = .ok (.loadImmediate 0 8) ∧
  decode ⟨0x01, 0xFF, 0xFF⟩ = .ok .halt ∧
  decode ⟨0x47, 0x07, 0x00⟩ = .ok (.printRegister 7) ∧
  decode ⟨0xA0, 0x00, 0x02⟩ = .ok (.add 0 2) ∧
  decode ⟨0xA2, 0x00, 0x01⟩ = .ok (.multiply 0 1) ∧
  decode ⟨0x45, 0x01, 0x99⟩ = .ok (.push 1) ∧
  decode ⟨0x50, 0x02, 0x99⟩ = .ok (.call 2) ∧
  decode ⟨0x11, 0x63, 0x63⟩ = .ok .ret ∧
  decode ⟨0xA7, 0x02, 0x03⟩ = .ok (.compare 2 3) ∧
  decode ⟨0x56, 0x03, 0x00⟩ = .ok (.jumpIfNotEqual 3) ∧
  decode ⟨0xA1, 0x00, 0x00⟩ = .error (.invalidOpcode 0xA1) ∧
  decode ⟨0x47, 0x08, 0x00⟩ = .error (.registerOutOfRange 8)

/-- The whole opcode byte is matched against the 13 values, each selecting its own tag and with it the width
(30_encoding.md R75, R76); every other byte selects nothing. -/
def Obligations.OpcodeByteMatchedWhole : Prop :=
  ∀ w : Window,
    (∀ i, decode w = .ok i → (w.op.toNat, i.tag, i.width) ∈ tableOne) ∧
    (∀ op, decode w = .error (.invalidOpcode op) ↔ (op = w.op ∧ ∀ row ∈ tableOne, w.op.toNat ≠ row.1))

/-- A window whose opcode is valid is rejected exactly when a register field its format defines is 8 or more, and the
first such field in byte order is named (30_encoding.md R72, R79; that unused fields are checked too, and when, is the
spec's decision D9). -/
def Obligations.RegisterFieldsChecked : Prop :=
  ∀ (w : Window) (t : Tag) (f : Byte), lookupOpcode w.op = some t →
    (decode w = .error (.registerOutOfRange f) ↔
      match t.format with
      | .n => False
      | .r => 8 ≤ w.opA.toNat ∧ f = w.opA
      | .ri => 8 ≤ w.opA.toNat ∧ f = w.opA
      | .rr => (8 ≤ w.opA.toNat ∧ f = w.opA) ∨ (w.opA.toNat < 8 ∧ 8 ≤ w.opB.toNat ∧ f = w.opB))

/-- Window bytes an instruction does not use may hold any value (30_encoding.md R74). -/
def Obligations.UnusedWindowBytesIgnored : Prop :=
  ∀ (w w' : Window) (i : Instr), decode w = .ok i →
    w'.bytes.take i.width = w.bytes.take i.width → decode w' = .ok i

/-! The step. -/

/-- A step executes the instruction its window decodes to, and adds nothing around it
(40_fetch_decode_execute.md R105, R108). -/
def Obligations.StepRunsDecodedInstruction : Prop :=
  ∀ (s : State) (i : Instr), s.status = .running → Fetchable s → decode (windowAt s) = .ok i → step s = exec i s

/-- A window that reaches past the last address faults on the first address outside memory, whatever the opcode
(40_fetch_decode_execute.md R101; the spec's decision D8; the record's layout and codes are its decisions D13, D14). -/
def Obligations.FetchPastMemoryFaults : Prop :=
  ∀ s : State, s.status = .running → ¬ Fetchable s →
    ∃ t, step s = .next t ∧
      FaultedAs .outOfBoundsAccess 2 (.access .memory (max s.pc.toNat Config.memSize)) s t

/-- An opcode byte that is none of the 13 faults and changes nothing else (40_fetch_decode_execute.md R102). -/
def Obligations.InvalidOpcodeFaults : Prop :=
  ∀ s : State, s.status = .running → Fetchable s →
    (∀ row ∈ tableOne, (s.mem.read s.pc.toNat).toNat ≠ row.1) →
    ∃ t, step s = .next t ∧ FaultedAs .invalidOpcode 1 (.opcode (s.mem.read s.pc.toNat)) s t

/-- A register field of 8 or more faults at decode, the first in byte order, before the instruction executes
(40_fetch_decode_execute.md R104; the spec's decisions D9 and D15). -/
def Obligations.RegisterFieldFaultsAtDecode : Prop :=
  ∀ (s : State) (f : Byte), s.status = .running → Fetchable s →
    decode (windowAt s) = .error (.registerOutOfRange f) →
    ∃ t, step s = .next t ∧ RegisterFieldFault f s t

/-- No step exists in LOADING, HALTED or FAULTED (40_fetch_decode_execute.md R100). That the model answers with a
refusal is its own choice (log entry 2), after 93_implementation_defined.md S14. -/
def Obligations.NoStepOutsideRunning : Prop :=
  ∀ s : State, s.status ≠ .running → step s = .refused (.noStep s.status)

/-- A running core always takes its step: it never stops, blocks or refuses
(40_fetch_decode_execute.md R107), and the status it leaves is RUNNING, HALTED or FAULTED (00_scope.md R14). -/
def Obligations.RunningStepAlwaysTaken : Prop :=
  ∀ s : State, s.status = .running → ∃ t, step s = .next t ∧ t.status ≠ .loading

/-- A faulting step writes nothing but the status and the record, and the record holds the faulting `pc`, the opcode
byte there and a kind with its code; `UnsupportedOperation` is never raised (60_exceptions.md R210, R214, R215;
the spec's decisions D13, D14 and D28). -/
def Obligations.FaultsArePrecise : Prop :=
  ∀ s t : State, s.status = .running → step s = .next t → t.status = .faulted →
    ∃ (kind : FaultKind) (code : Nat) (detail : FaultDetail), FaultedAs kind code detail s t ∧
      (kind, code) ∈ [(FaultKind.invalidOpcode, 1), (.outOfBoundsAccess, 2), (.stackUnderflow, 3), (.stackOverflow, 4),
        (.valueOutOfRange, 6), (.arithmeticOverflow, 7)]

/-- Only HALT writes HALTED: a step ends HALTED exactly when the byte it fetched is HALT's opcode
(10_state.md R32; 40_fetch_decode_execute.md R110). -/
def Obligations.OnlyHaltHalts : Prop :=
  ∀ s t : State, s.status = .running → step s = .next t →
    (t.status = .halted ↔ Fetchable s ∧ s.mem.read s.pc.toNat = 1)

/-- Only PRINT_REGISTER changes the output stream, by appending one register's value (10_state.md R34). -/
def Obligations.OnlyPrintRegisterEmits : Prop :=
  ∀ s t : State, step s = .next t → t.out ≠ s.out →
    s.mem.read s.pc.toNat = 71 ∧
      ∃ a : Reg, s.mem.read (s.pc.toNat + 1) = a.field ∧ t.out = s.out ++ [(s.reg a).toNat]

/-- Only PUSH and CALL write memory, and only at the address `pushSlot` gives, `SP - 1` (20_memory.md R64, an inference
the spec marks as its own). -/
def Obligations.OnlyPushAndCallStore : Prop :=
  ∀ s t : State, step s = .next t →
    (s.mem.read s.pc.toNat ≠ 69 → s.mem.read s.pc.toNat ≠ 80 → MemKept s t) ∧
    (∀ slot, pushSlot s = .ok slot → slot = s.sp - 1 ∧ MemKeptExcept slot s t) ∧
    ((∃ c, pushSlot s = .error c) → MemKept s t)

/-- Flags persist until the next COMPARE, across any number of other instructions (10_state.md R28). -/
def Obligations.FlagsPersistBetweenCompares : Prop :=
  ∀ s t : State, RunWithoutCompare s t → FlagsKept s t

/-- After a step `pc` is at most MEM_SIZE, or as before, or a register's value (40_fetch_decode_execute.md R106;
10_state.md R26; an inference the spec marks as its own). That an advance is exact is `PcUpdatedAsTabled`. -/
def Obligations.PcAfterStepBounded : Prop :=
  ∀ s t : State, step s = .next t → t.pc.toNat ≤ Config.memSize ∨ t.pc = s.pc ∨ ∃ a : Reg, t.pc = s.reg a

/-- The registers an instruction writes are those of the register access table, whatever it ends in
(10_state.md R23, column "registers written"). -/
def Obligations.RegistersWrittenAsTabled : Prop :=
  ∀ (i : Instr) (s t : State), exec i s = .next t → RegsKeptExcept (regsWritten i) s t

/-- A register the table does not list as read has no influence: changing it changes the next state in that register
only, or not at all where the instruction writes it (10_state.md R23, column "registers read"). -/
def Obligations.UnreadRegistersDoNotMatter : Prop :=
  ∀ (i : Instr) (s t : State) (r : Reg) (v : Word), exec i s = .next t → r ∉ regsRead i s →
    ∃ t', exec i (s.setReg r v) = .next t' ∧
      (t' = t.setReg r v ∨ (r ∈ regsWritten i ∧ t' = t))

/-! The invariant. -/

/-- The invariant holds after reset (70_reset_and_hazards.md R240). -/
def Obligations.InvAtReset : Prop := State.reset.Inv

/-- Every step keeps the invariant: memory stays canonical and inside 512 cells, the fault record is present in FAULTED
only and is exact, a halted run stands at a HALT, at most one flag is set, every emitted number fits a register. -/
def Obligations.StepKeepsInv : Prop :=
  ∀ s t : State, s.Inv → step s = .next t → t.Inv

/-- Every host operation keeps the invariant (00_scope.md R13; 70_reset_and_hazards.md R240, R242, R245). -/
def Obligations.HostOperationsKeepInv : Prop :=
  ∀ (c : HostCommand) (s t : State), c ≠ .step → s.Inv → hostApply c s = .next t → t.Inv

/-! The loop's instructions. -/

/-- HALT completes: the status is HALTED and nothing else changes, `pc` included (40_fetch_decode_execute.md R110;
that `pc` stays is the spec's decision D18). -/
def Obligations.HaltStopsTheRun : Prop :=
  ∀ s : State, ∃ t, exec .halt s = .next t ∧ t.status = .halted ∧ t.pc = s.pc ∧ RegsKeptExcept [] s t ∧
    FlagsKept s t ∧ MemKept s t ∧ t.out = s.out ∧ t.fault = s.fault

/-- LOAD_IMMEDIATE: its encoding; the zero-extended literal, 0 to 255, in `x[rd]`; its frame; the fault of `rd ≥ 8`
(40_fetch_decode_execute.md R111; that `exec`, and not only the decoder, answers that fault is log entry 5, DEDUCED). -/
def Obligations.LoadImmediateLoads : Prop :=
  ∀ (rd imm8 : Byte) (s : State),
    (∀ d : Reg, rd = d.field →
      decode ⟨0x82, rd, imm8⟩ = .ok (.loadImmediate rd imm8) ∧
      ∃ t, exec (.loadImmediate rd imm8) s = .next t ∧ (t.reg d).toNat = imm8.toNat ∧ PcAdvances 3 s t ∧
        RegsKeptExcept [d] s t ∧ FlagsKept s t ∧ MemKept s t ∧ t.out = s.out ∧ RunKept s t) ∧
    (8 ≤ rd.toNat → ∃ t, exec (.loadImmediate rd imm8) s = .next t ∧ RegisterFieldFault rd s t)

/-- PRINT_REGISTER: its encoding; the register's full value appended to the output; its frame; the fault of `ra ≥ 8`
(40_fetch_decode_execute.md R112; that `exec`, and not only the decoder, answers that fault is log entry 5, DEDUCED). -/
def Obligations.PrintRegisterEmits : Prop :=
  ∀ (ra : Byte) (s : State),
    (∀ a : Reg, ra = a.field →
      (∀ b, decode ⟨0x47, ra, b⟩ = .ok (.printRegister ra)) ∧
      ∃ t, exec (.printRegister ra) s = .next t ∧ t.out = s.out ++ [(s.reg a).toNat] ∧ PcAdvances 2 s t ∧
        RegsKeptExcept [] s t ∧ FlagsKept s t ∧ MemKept s t ∧ RunKept s t) ∧
    (8 ≤ ra.toNat → ∃ t, exec (.printRegister ra) s = .next t ∧ RegisterFieldFault ra s t)

/-! The ALU. -/

/-- ADD: the exact sum of its encoded registers goes to the first (41_alu.md R131; the mode ENCODED is the spec's
decision D4), and a sum that does not fit faults (its decision D2). -/
def Obligations.AddAddsEncodedRegisters : Prop :=
  ∀ (a b : Reg) (s : State),
    let sum := (s.reg a).toNat + (s.reg b).toNat
    (sum < 2 ^ 32 →
      ∃ t, exec (.add a.field b.field) s = .next t ∧ (t.reg a).toNat = sum ∧ PcAdvances 3 s t ∧
        RegsKeptExcept [a] s t ∧ FlagsKept s t ∧ MemKept s t ∧ t.out = s.out ∧ RunKept s t) ∧
    (2 ^ 32 ≤ sum →
      ∃ t, exec (.add a.field b.field) s = .next t ∧ FaultedAs .arithmeticOverflow 7 (.value sum) s t)

/-- ADD in `REFERENCE_R0` mode: it doubles `x[0]`, whatever registers it names (41_alu.md R131, R135; this mode is not
the one the spec takes for this hardware, its decision D4). -/
def Obligations.AddReferenceModeDoublesR0 : Prop :=
  ∀ (a b : Reg) (s : State),
    let sum := (s.reg .r0).toNat + (s.reg .r0).toNat
    (sum < 2 ^ 32 →
      ∃ t, addIn .referenceR0 a.field b.field s = .next t ∧ (t.reg .r0).toNat = sum ∧ PcAdvances 3 s t ∧
        RegsKeptExcept [.r0] s t ∧ FlagsKept s t ∧ MemKept s t ∧ t.out = s.out ∧ RunKept s t) ∧
    (2 ^ 32 ≤ sum →
      ∃ t, addIn .referenceR0 a.field b.field s = .next t ∧ FaultedAs .arithmeticOverflow 7 (.value sum) s t)

/-- MULTIPLY: the exact product goes to the first register (41_alu.md R132), and a product that does not fit faults
(R133, the spec's decision D2). -/
def Obligations.MultiplyMultiplies : Prop :=
  ∀ (a b : Reg) (s : State),
    let product := (s.reg a).toNat * (s.reg b).toNat
    (product < 2 ^ 32 →
      ∃ t, exec (.multiply a.field b.field) s = .next t ∧ (t.reg a).toNat = product ∧ PcAdvances 3 s t ∧
        RegsKeptExcept [a] s t ∧ FlagsKept s t ∧ MemKept s t ∧ t.out = s.out ∧ RunKept s t) ∧
    (2 ^ 32 ≤ product →
      ∃ t, exec (.multiply a.field b.field) s = .next t ∧ FaultedAs .arithmeticOverflow 7 (.value product) s t)

/-- The ALU's contract: the exact sum, the exact product, and `UnsupportedOperation` for any other operation
(41_alu.md R130, R133). That the operation input is the opcode byte is the model's choice (log entry 9). -/
def Obligations.AluOperations : Prop :=
  ∀ (operation : Byte) (a b : Nat),
    (operation = 160 → aluApply operation a b = .ok (a + b)) ∧
    (operation = 162 → aluApply operation a b = .ok (a * b)) ∧
    (operation ≠ 160 → operation ≠ 162 → aluApply operation a b = .error (.unsupportedOperation operation))

/-! The stack. -/

/-- PUSH completes: `SP` is decremented, the register, read after the decrement, is stored at the new `SP`, the address
`pushSlot` gives, and nothing else changes (42_stack.md R150; the reading in sequence is the spec's decision D16). -/
def Obligations.PushPushes : Prop :=
  ∀ (a : Reg) (s : State),
    let v := if a = .sp then s.sp - 1 else (s.reg a).toNat
    s.sp ≠ 0 → s.sp - 1 < Config.memSize → v ≤ 255 →
    pushSlot s = .ok (s.sp - 1) ∧
    ∃ t, exec (.push a.field) s = .next t ∧ t.sp = s.sp - 1 ∧ (t.mem.read t.sp).toNat = v ∧ PcAdvances 2 s t ∧
      (∀ slot, pushSlot s = .ok slot → MemKeptExcept slot s t) ∧
      RegsKeptExcept [.sp] s t ∧ FlagsKept s t ∧ t.out = s.out ∧ RunKept s t

/-- Where PUSH traps, in the order of its checks (42_stack.md R150; 60_exceptions.md R216; the spec's decisions D3,
D10, D12 and D15). -/
def Obligations.PushFaults : Prop :=
  ∀ (a : Reg) (s : State),
    let v := if a = .sp then s.sp - 1 else (s.reg a).toNat
    (s.sp = 0 → ∃ t, exec (.push a.field) s = .next t ∧ FaultedAs .stackOverflow 4 (.value 0) s t) ∧
    (Config.memSize ≤ s.sp - 1 →
      ∃ t, exec (.push a.field) s = .next t ∧ FaultedAs .outOfBoundsAccess 2 (.access .memory (s.sp - 1)) s t) ∧
    (s.sp ≠ 0 → s.sp - 1 < Config.memSize → 255 < v →
      ∃ t, exec (.push a.field) s = .next t ∧ FaultedAs .valueOutOfRange 6 (.value v) s t)

/-- POP completes: the byte at `SP` goes to the register, then `SP` is incremented, so a POP into R7 leaves the byte
plus one (42_stack.md R151; the reading in sequence is the spec's decision D16). No memory changes. -/
def Obligations.PopPops : Prop :=
  ∀ (a : Reg) (s : State), s.sp < Config.memSize →
    ∃ t, exec (.pop a.field) s = .next t ∧
      (a ≠ .sp → (t.reg a).toNat = (s.mem.read s.sp).toNat ∧ t.sp = s.sp + 1) ∧
      (a = .sp → t.sp = (s.mem.read s.sp).toNat + 1) ∧
      PcAdvances 2 s t ∧ RegsKeptExcept [a, .sp] s t ∧ FlagsKept s t ∧ MemKept s t ∧ t.out = s.out ∧ RunKept s t

/-- Where POP and RETURN trap: `SP` at or beyond capacity (42_stack.md R151, R153; 60_exceptions.md R213; the spec's
decision D11). -/
def Obligations.PopAndReturnUnderflow : Prop :=
  ∀ (a : Reg) (s : State), Config.memSize ≤ s.sp →
    (∃ t, exec (.pop a.field) s = .next t ∧ FaultedAs .stackUnderflow 3 (.value s.sp) s t) ∧
    (∃ t, exec .ret s = .next t ∧ FaultedAs .stackUnderflow 3 (.value s.sp) s t)

/-- CALL completes: `SP` is decremented, the return address `pc + 2` is stored at the new `SP`, the address `pushSlot`
gives, and `pc` is the register, read after the decrement (42_stack.md R152; the spec's decisions D3 and D16). -/
def Obligations.CallCalls : Prop :=
  ∀ (a : Reg) (s : State),
    s.sp ≠ 0 → s.sp - 1 < Config.memSize → s.pc.toNat + 2 ≤ 255 →
    pushSlot s = .ok (s.sp - 1) ∧
    ∃ t, exec (.call a.field) s = .next t ∧ t.sp = s.sp - 1 ∧ (t.mem.read t.sp).toNat = s.pc.toNat + 2 ∧
      t.pc.toNat = (if a = .sp then s.sp - 1 else (s.reg a).toNat) ∧
      (∀ slot, pushSlot s = .ok slot → MemKeptExcept slot s t) ∧
      RegsKeptExcept [.sp] s t ∧ FlagsKept s t ∧ t.out = s.out ∧ RunKept s t

/-- Where CALL traps, in the order of its checks (42_stack.md R152; 60_exceptions.md R216; the spec's decisions D3,
D10, D12 and D15). -/
def Obligations.CallFaults : Prop :=
  ∀ (a : Reg) (s : State),
    (s.sp = 0 → ∃ t, exec (.call a.field) s = .next t ∧ FaultedAs .stackOverflow 4 (.value 0) s t) ∧
    (Config.memSize ≤ s.sp - 1 →
      ∃ t, exec (.call a.field) s = .next t ∧ FaultedAs .outOfBoundsAccess 2 (.access .memory (s.sp - 1)) s t) ∧
    (s.sp ≠ 0 → s.sp - 1 < Config.memSize → 255 < s.pc.toNat + 2 →
      ∃ t, exec (.call a.field) s = .next t ∧ FaultedAs .valueOutOfRange 6 (.value (s.pc.toNat + 2)) s t)

/-- RETURN completes: `pc` is the byte at `SP`, and `SP` is incremented (42_stack.md R153). No memory changes. -/
def Obligations.ReturnReturns : Prop :=
  ∀ s : State, s.sp < Config.memSize →
    ∃ t, exec .ret s = .next t ∧ t.pc.toNat = (s.mem.read s.sp).toNat ∧ t.sp = s.sp + 1 ∧
      RegsKeptExcept [.sp] s t ∧ FlagsKept s t ∧ MemKept s t ∧ t.out = s.out ∧ RunKept s t

/-- PUSH then POP of the same register restores the register and `SP`; only the byte at the old `SP - 1` changes, and
it holds the register. For R7 the pair restores `SP` when `SP ≤ 256` (42_stack.md R157, an inference the spec marks as
its own; the R7 case rests on its decision D16). -/
def Obligations.PushThenPopRestores : Prop :=
  ∀ (a : Reg) (s : State), s.sp ≠ 0 → s.sp - 1 < Config.memSize →
    (if a = .sp then s.sp ≤ 256 else (s.reg a).toNat ≤ 255) →
    ∃ t u, exec (.push a.field) s = .next t ∧ exec (.pop a.field) t = .next u ∧
      RegsKeptExcept [] s u ∧ FlagsKept s u ∧ MemKeptExcept (s.sp - 1) s u ∧
      (a ≠ .sp → (u.mem.read (s.sp - 1)).toNat = (s.reg a).toNat) ∧ u.out = s.out ∧ RunKept s u

/-- A RETURN that finds `SP` and the pushed byte as a CALL left them resumes at the CALL's address plus 2, with `SP` as
before the CALL (95_test_vectors.md X3; 42_stack.md R152, R153, R155). -/
def Obligations.CallThenReturnResumes : Prop :=
  ∀ (a : Reg) (s : State), s.sp ≠ 0 → s.sp - 1 < Config.memSize → s.pc.toNat + 2 ≤ 255 →
    ∃ t, exec (.call a.field) s = .next t ∧
      ∀ u : State, u.sp = t.sp → u.mem.read u.sp = t.mem.read t.sp →
        ∃ v, exec .ret u = .next v ∧ v.pc.toNat = s.pc.toNat + 2 ∧ v.sp = s.sp

/-- A byte a PUSH stored is fetched as an opcode by the next window that begins there (20_memory.md R60, an inference
the spec marks as its own). -/
def Obligations.PushedByteIsFetched : Prop :=
  ∀ (a : Reg) (s t : State), s.status = .running → exec (.push a.field) s = .next t → t.status = .running →
    t.sp + 2 < Config.memSize →
    ∃ w, fetchWindow (t.setPc (t.reg .sp)) = .ok w ∧
      w.op.toNat = (if a = .sp then s.sp - 1 else (s.reg a).toNat)

/-! Compare and branch. -/

/-- COMPARE completes: it writes all three flags from the unsigned comparison, so that exactly one is set, and nothing
else (43_compare_branch.md R180; that it clears the others is the spec's decision D5). -/
def Obligations.CompareSetsAllFlags : Prop :=
  ∀ (a b : Reg) (s : State),
    ∃ t, exec (.compare a.field b.field) s = .next t ∧
      (t.e = true ↔ (s.reg a).toNat = (s.reg b).toNat) ∧
      (t.l = true ↔ (s.reg a).toNat < (s.reg b).toNat) ∧
      (t.g = true ↔ (s.reg b).toNat < (s.reg a).toNat) ∧
      [t.e, t.l, t.g].count true = 1 ∧
      PcAdvances 3 s t ∧ RegsKeptExcept [] s t ∧ MemKept s t ∧ t.out = s.out ∧ RunKept s t

/-- JUMP: its encoding; `pc` is the register; its frame; the fault of `ra ≥ 8` (43_compare_branch.md R181; that `exec`,
and not only the decoder, answers that fault is log entry 5, DEDUCED). -/
def Obligations.JumpJumps : Prop :=
  ∀ (ra : Byte) (s : State),
    (∀ a : Reg, ra = a.field →
      (∀ b, decode ⟨0x54, ra, b⟩ = .ok (.jump ra)) ∧
      ∃ t, exec (.jump ra) s = .next t ∧ t.pc = s.reg a ∧ RegsKeptExcept [] s t ∧ FlagsKept s t ∧ MemKept s t ∧
        t.out = s.out ∧ RunKept s t) ∧
    (8 ≤ ra.toNat → ∃ t, exec (.jump ra) s = .next t ∧ RegisterFieldFault ra s t)

/-- JUMP_IF_EQUAL completes: to the register if `E` is set, else past itself; `L` and `G` play no part
(43_compare_branch.md R182). -/
def Obligations.JumpIfEqualTestsE : Prop :=
  ∀ (a : Reg) (s : State),
    ∃ t, exec (.jumpIfEqual a.field) s = .next t ∧ (s.e = true → t.pc = s.reg a) ∧ (s.e = false → PcAdvances 2 s t) ∧
      RegsKeptExcept [] s t ∧ FlagsKept s t ∧ MemKept s t ∧ t.out = s.out ∧ RunKept s t

/-- JUMP_IF_NOT_EQUAL completes: to the register if `E` is clear, else past itself; `L` and `G` play no part
(43_compare_branch.md R183). -/
def Obligations.JumpIfNotEqualTestsE : Prop :=
  ∀ (a : Reg) (s : State),
    ∃ t, exec (.jumpIfNotEqual a.field) s = .next t ∧ (s.e = false → t.pc = s.reg a) ∧
      (s.e = true → PcAdvances 2 s t) ∧
      RegsKeptExcept [] s t ∧ FlagsKept s t ∧ MemKept s t ∧ t.out = s.out ∧ RunKept s t

/-- COMPARE followed at once by a conditional jump: JUMP_IF_EQUAL is taken exactly when the registers were equal,
JUMP_IF_NOT_EQUAL exactly when they differed (43_compare_branch.md R185, an inference the spec marks as its own). -/
def Obligations.CompareThenBranch : Prop :=
  ∀ (a b c : Reg) (s : State), Fetchable s →
    ∃ t u v, exec (.compare a.field b.field) s = .next t ∧ exec (.jumpIfEqual c.field) t = .next u ∧
      exec (.jumpIfNotEqual c.field) t = .next v ∧
      (if s.reg a = s.reg b then u.pc = s.reg c ∧ v.pc.toNat = t.pc.toNat + 2
       else u.pc.toNat = t.pc.toNat + 2 ∧ v.pc = s.reg c)

/-- An instruction with a register field of 8 or more takes the fault of its first such field, whatever else would
apply (40_fetch_decode_execute.md R104; the spec's decision D9; that `exec` too answers so is log entry 5). -/
def Obligations.IllFormedInstructionFaults : Prop :=
  ∀ (i : Instr) (s : State), i.wf = false →
    ∃ (f : Byte) (t : State), firstBadField i.regFields = some f ∧ exec i s = .next t ∧ RegisterFieldFault f s t

/-! Memory. -/

/-- A read is the cell, or the fault of an address outside memory (20_memory.md R50). -/
def Obligations.MemReadIsChecked : Prop :=
  ∀ (s : State) (addr : Nat),
    (addr < 512 → memRead s addr = .ok (s.mem.read addr)) ∧
    (512 ≤ addr → memRead s addr = .error (.outOfBoundsAccess .memory addr))

/-- A write stores the value, or is the fault of an address outside memory, or else of a value above 255
(20_memory.md R51; the second is the spec's decision D3). -/
def Obligations.MemWriteIsChecked : Prop :=
  ∀ (s : State) (addr v : Nat),
    (addr < 512 → v ≤ 255 → ∃ t, memWrite s addr v = .ok t ∧ (t.mem.read addr).toNat = v ∧ MemKeptExcept addr s t ∧
      RegsKeptExcept [] s t ∧ FlagsKept s t ∧ t.pc = s.pc ∧ t.out = s.out ∧ RunKept s t) ∧
    (512 ≤ addr → memWrite s addr v = .error (.outOfBoundsAccess .memory addr)) ∧
    (addr < 512 → 255 < v → memWrite s addr v = .error (.valueOutOfRange v))

/-- Canonical memories that read the same everywhere are the same data (the model's form of memory, log entry 4). -/
def Obligations.EqualReadsAreEqualMemories : Prop :=
  ∀ m m' : Memory, m.wf = true → m'.wf = true → (∀ a, m.read a = m'.read a) → m = m'

/-! The host's operations. -/

/-- `reset`, in any status, leaves the state of R240 (70_reset_and_hazards.md; `pc` and the flags are the spec's
decisions D7 and D6; what cells 256 to 511 read as before `start` is log entry 4, and nothing is said of them). -/
def Obligations.ResetConstructs : Prop :=
  ∀ s : State, hostReset s = State.reset ∧
    (∀ r : Reg, r ≠ .sp → State.reset.reg r = 0) ∧ State.reset.sp = 0xF4 ∧ State.reset.pc = 0 ∧
    State.reset.e = false ∧ State.reset.l = false ∧ State.reset.g = false ∧
    (∀ a, a < 256 → State.reset.mem.read a = 0) ∧
    State.reset.status = .loading ∧ State.reset.fault = none ∧ State.reset.out = []

/-- `load` writes one byte when it is admitted, and is refused otherwise (70_reset_and_hazards.md R242, the spec's
decision D22). -/
def Obligations.LoadWritesWhenAdmitted : Prop :=
  ∀ (s : State) (addr byte : Nat),
    (s.status = .loading → addr < 256 → byte ≤ 255 →
      ∃ t, hostLoad addr byte s = .next t ∧ (t.mem.read addr).toNat = byte ∧ MemKeptExcept addr s t ∧
        RegsKeptExcept [] s t ∧ FlagsKept s t ∧ t.pc = s.pc ∧ t.out = s.out ∧ RunKept s t) ∧
    ((s.status ≠ .loading ∨ 256 ≤ addr ∨ 255 < byte) → hostLoad addr byte s = .refused .loadNotAdmitted)

/-- After the load phase memory holds the image from address 0 on, and 0 beyond it up to the base capacity
(70_reset_and_hazards.md R243). -/
def Obligations.LoadedImageStandsInMemory : Prop :=
  ∀ image : List Nat, image.length ≤ 256 → (∀ b ∈ image, b ≤ 255) →
    ∃ t, hostLoadImage 0 image State.reset = .next t ∧
      (∀ a (h : a < image.length), (t.mem.read a).toNat = image[a]) ∧
      (∀ a, image.length ≤ a → a < 256 → t.mem.read a = 0)

/-- `start` begins the run: cells 256 to 511 are 0, `SP` is 511, the status is RUNNING, and nothing else changes
(70_reset_and_hazards.md R245, the spec's decision D21). -/
def Obligations.StartBeginsTheRun : Prop :=
  ∀ s : State, s.status = .loading →
    ∃ t, hostStart s = .next t ∧ t.status = .running ∧ t.sp = 511 ∧ t.pc = s.pc ∧
      (∀ a, 256 ≤ a → a < 512 → t.mem.read a = 0) ∧ (∀ a, a < 256 → t.mem.read a = s.mem.read a) ∧
      RegsKeptExcept [.sp] s t ∧ FlagsKept s t ∧ t.out = s.out ∧ t.fault = s.fault

/-- `start` is refused in every status but LOADING, so at most once per `reset` (70_reset_and_hazards.md R246, the
spec's decision D24). -/
def Obligations.StartRefusedOutsideLoading : Prop :=
  ∀ s : State, s.status ≠ .loading → hostStart s = .refused .startNotAdmitted

/-- `withFetchWord` places an instruction where the next step runs it: if the bits decode to `i`, the next step is
`exec i`. This is a statement about the model's own interface (log entry 3). -/
def Obligations.PlacedInstructionRunsNext : Prop :=
  ∀ (s : State) (nbits w : Nat) (i : Instr), decodeTableWord nbits w = some i →
    step (s.withFetchWord nbits w) = exec i (s.withFetchWord nbits w)

/-! The `pc` update, and runs. -/

/-- A step that does not fault leaves `pc` exactly at the value the table of the `pc` update gives its instruction, so
no advance wraps; one that faults leaves `pc` as it was (40_fetch_decode_execute.md R106; that HALT's `pc` stays is the
spec's decision D18; CALL's register after the decrement is its decision D16). -/
def Obligations.PcUpdatedAsTabled : Prop :=
  ∀ s t : State, step s = .next t →
    (t.status ≠ .faulted → ∃ i, decode (windowAt s) = .ok i ∧ PcAsTabled i s t.pc.toNat) ∧
    (t.status = .faulted → t.pc = s.pc)

/-- A run ends in HALTED, at a HALT, or in FAULTED, with a record of where, or has used up the host's fuel and is still
RUNNING; it begins with `start`, where that is admitted (00_scope.md R14; 70_reset_and_hazards.md R246, R249). -/
def Obligations.RunEndsHaltedOrFaulted : Prop :=
  ∀ (fuel : Nat) (s : State),
    (s.status = .running → ∃ t,
      (runUnder fuel s = .halted t ∧ t.status = .halted ∧ Fetchable t ∧ t.mem.read t.pc.toNat = 1) ∨
      (runUnder fuel s = .faulted t ∧ t.status = .faulted ∧ ∃ r, t.fault = some r ∧ r.fpc = t.pc) ∨
      (runUnder fuel s = .outOfFuel t ∧ t.status = .running)) ∧
    (s.status = .loading →
      ∃ u, hostStart s = .next u ∧ u.status = .running ∧ hostRun fuel s = runUnder fuel u) ∧
    (s.status ≠ .loading → hostRun fuel s = .refused .startNotAdmitted)

/-- A run is the sequence of steps until the status leaves RUNNING, and fuel is no part of the core: it is exhausted
exactly when that many steps lead to a state still RUNNING, and a run ends within it exactly when some number of steps
up to it leads to a state HALTED, or FAULTED (00_scope.md R14; 40_fetch_decode_execute.md R107). -/
def Obligations.RunIsTheStepSequence : Prop :=
  ∀ (fuel : Nat) (s t : State), s.status = .running →
    (runUnder fuel s = .outOfFuel t ↔ StepsTo fuel s t ∧ t.status = .running) ∧
    (runUnder fuel s = .halted t ↔ ∃ n, n ≤ fuel ∧ StepsTo n s t ∧ t.status = .halted) ∧
    (runUnder fuel s = .faulted t ↔ ∃ n, n ≤ fuel ∧ StepsTo n s t ∧ t.status = .faulted)

/-- A run may never end: a JUMP to its own address exhausts every fuel, in the state it stands in (00_scope.md R14). -/
def Obligations.JumpToItselfNeverEnds : Prop :=
  ∀ (a : Reg) (s : State), s.status = .running → Fetchable s →
    decode (windowAt s) = .ok (.jump a.field) → s.reg a = s.pc →
    ∀ fuel, runUnder fuel s = .outOfFuel s
end

