-- ==== Sys2Proof/Laws/Memory.lean ====
section
/-! SUPPORT. Laws/Memory.lean: the laws of memory as canonical data. A read after a write, and that every memory
operation keeps the canonical form and the bound on addresses. -/

namespace Sys2Proof.Machine

/-! Reads. -/

@[simp] theorem Memory.read_nil (a : Nat) : Memory.read [] a = Memory.unlisted := rfl

theorem Memory.read_cons (b : Nat) (v : Byte) (m : Memory) (a : Nat) :
    Memory.read ((b, v) :: m) a = if b = a then v else Memory.read m a := rfl

theorem Memory.read_insert_same (m : Memory) (a : Nat) (v : Byte) (h : ∀ c ∈ m, c.1 ≠ a) :
    (Memory.insert m a v).read a = v := by
  induction m with
  | nil => simp [Memory.insert, Memory.read]
  | cons c m ih =>
    obtain ⟨b, w⟩ := c
    have hb : b ≠ a := h (b, w) (by simp)
    unfold Memory.insert
    split
    · simp [Memory.read_cons]
    · rw [Memory.read_cons, if_neg hb]
      exact ih fun c hc => h c (by simp [hc])

theorem Memory.read_insert_ne (m : Memory) (a x : Nat) (v : Byte) (h : x ≠ a) :
    (Memory.insert m a v).read x = m.read x := by
  induction m with
  | nil => simp [Memory.insert, Memory.read, Ne.symm h]
  | cons c m ih =>
    obtain ⟨b, w⟩ := c
    unfold Memory.insert
    split
    · simp [Memory.read_cons, Ne.symm h]
    · simp [Memory.read_cons, ih]

/-- What a filtered memory reads as. -/
theorem Memory.read_filter (m : Memory) (p : Host.Cell → Bool) (q : Nat → Bool) (hp : ∀ c, p c = q c.1) (x : Nat) :
    Memory.read (m.filter p) x = if q x then m.read x else Memory.unlisted := by
  induction m with
  | nil => simp [Memory.read]
  | cons c m ih =>
    obtain ⟨b, w⟩ := c
    by_cases hb : b = x
    · subst hb
      cases hq : q b <;> simp [hp, hq, Memory.read_cons, ih]
    · cases hq : q b <;> simp [hp, hq, Memory.read_cons, ih, hb]

theorem Memory.read_erase (m : Memory) (a x : Nat) :
    (m.erase a).read x = if x = a then Memory.unlisted else m.read x := by
  rw [Memory.erase, Memory.read_filter m _ (fun b => decide (b ≠ a)) (fun _ => rfl)]
  by_cases h : x = a <;> simp [h]

theorem Memory.not_mem_erase (m : Memory) (a : Nat) : ∀ c ∈ m.erase a, c.1 ≠ a := by
  intro c hc
  simpa [Memory.erase] using (List.mem_filter.mp hc).2

/-- A read after a write: the value written, and every other address as before. -/
theorem Memory.read_write (m : Memory) (a x : Nat) (v : Byte) :
    (m.write a v).read x = if x = a then v else m.read x := by
  unfold Memory.write
  by_cases hv : v = Memory.unlisted
  · simp [hv, Memory.read_erase]
  · rw [if_neg hv]
    by_cases hx : x = a
    · subst hx
      simp [Memory.read_insert_same _ _ _ (Memory.not_mem_erase m x)]
    · rw [Memory.read_insert_ne _ _ _ _ hx, Memory.read_erase]
      simp [hx]

@[simp] theorem Memory.read_write_same (m : Memory) (a : Nat) (v : Byte) : (m.write a v).read a = v := by
  simp [Memory.read_write]

theorem Memory.read_write_ne (m : Memory) (a x : Nat) (v : Byte) (h : x ≠ a) : (m.write a v).read x = m.read x := by
  simp [Memory.read_write, h]

theorem Memory.read_clear (m : Memory) (lo hi x : Nat) :
    (m.clear lo hi).read x = if lo ≤ x ∧ x < hi then Memory.unlisted else m.read x := by
  rw [Memory.clear, Memory.read_filter m _ (fun b => !(decide (lo ≤ b) && decide (b < hi))) (fun _ => rfl)]
  by_cases h1 : lo ≤ x <;> by_cases h2 : x < hi <;> simp [h1, h2]

/-! The canonical form. -/

theorem Memory.above_iff (a : Nat) (m : Memory) : Memory.above a m = true ↔ ∀ c ∈ m, a < c.1 := by
  simp [Memory.above]

theorem Memory.below_iff (hi : Nat) (m : Memory) : Memory.below hi m = true ↔ ∀ c ∈ m, c.1 < hi := by
  simp [Memory.below]

theorem Memory.wf_cons (a : Nat) (v : Byte) (m : Memory) :
    Memory.wf ((a, v) :: m) = true ↔ v ≠ Memory.unlisted ∧ (∀ c ∈ m, a < c.1) ∧ m.wf = true := by
  simp [Memory.wf, Memory.above, and_assoc]

theorem Memory.wf_filter (m : Memory) (p : Host.Cell → Bool) (h : m.wf = true) : Memory.wf (m.filter p) = true := by
  induction m with
  | nil => rfl
  | cons c m ih =>
    obtain ⟨a, v⟩ := c
    obtain ⟨hv, ha, hm⟩ := (Memory.wf_cons a v m).mp h
    rw [List.filter_cons]
    split
    · exact (Memory.wf_cons a v _).mpr ⟨hv, fun c hc => ha c (List.mem_filter.mp hc).1, ih hm⟩
    · exact ih hm

theorem Memory.mem_insert (m : Memory) (a : Nat) (v : Byte) (c : Host.Cell) :
    c ∈ Memory.insert m a v ↔ c = (a, v) ∨ c ∈ m := by
  induction m with
  | nil => simp [Memory.insert]
  | cons d m ih =>
    obtain ⟨b, w⟩ := d
    unfold Memory.insert
    split
    · simp
    · simp only [List.mem_cons, ih]
      tauto

theorem Memory.wf_insert (m : Memory) (a : Nat) (v : Byte) (hm : m.wf = true) (hv : v ≠ Memory.unlisted)
    (ha : ∀ c ∈ m, c.1 ≠ a) : Memory.wf (Memory.insert m a v) = true := by
  induction m with
  | nil => simpa [Memory.insert, Memory.wf, Memory.above] using hv
  | cons c m ih =>
    obtain ⟨b, w⟩ := c
    obtain ⟨hw, hb, hm'⟩ := (Memory.wf_cons b w m).mp hm
    unfold Memory.insert
    split
    next hlt =>
      refine (Memory.wf_cons a v _).mpr ⟨hv, fun c hc => ?_, hm⟩
      rcases List.mem_cons.mp hc with rfl | hc
      · exact hlt
      · exact Nat.lt_trans hlt (hb c hc)
    next hlt =>
      have hne : b ≠ a := ha (b, w) (by simp)
      refine (Memory.wf_cons b w _).mpr ⟨hw, fun c hc => ?_, ih hm' fun c hc => ha c (by simp [hc])⟩
      rcases (Memory.mem_insert m a v c).mp hc with rfl | hc
      · simp only; omega
      · exact hb c hc

/-- Erasing keeps the canonical form. -/
theorem Memory.wf_erase (m : Memory) (a : Nat) (h : m.wf = true) : (m.erase a).wf = true := Memory.wf_filter m _ h

/-- Writing keeps the canonical form. -/
theorem Memory.wf_write (m : Memory) (a : Nat) (v : Byte) (h : m.wf = true) : (m.write a v).wf = true := by
  unfold Memory.write
  split
  · exact Memory.wf_erase m a h
  · exact Memory.wf_insert _ _ _ (Memory.wf_erase m a h) ‹_› (Memory.not_mem_erase m a)

/-- Clearing keeps the canonical form. -/
theorem Memory.wf_clear (m : Memory) (lo hi : Nat) (h : m.wf = true) : (m.clear lo hi).wf = true :=
  Memory.wf_filter m _ h

theorem Memory.below_filter (m : Memory) (p : Host.Cell → Bool) (hi : Nat) (h : m.below hi = true) :
    Memory.below hi (m.filter p) = true :=
  (Memory.below_iff hi _).mpr fun c hc => (Memory.below_iff hi m).mp h c (List.mem_filter.mp hc).1

/-- Writing inside a bound keeps the bound. -/
theorem Memory.below_write (m : Memory) (a : Nat) (v : Byte) (hi : Nat) (h : m.below hi = true) (ha : a < hi) :
    (m.write a v).below hi = true := by
  unfold Memory.write
  split
  · exact Memory.below_filter m _ hi h
  · refine (Memory.below_iff hi _).mpr fun c hc => ?_
    rcases (Memory.mem_insert _ a v c).mp hc with rfl | hc
    · exact ha
    · exact (Memory.below_iff hi _).mp (Memory.below_filter m _ hi h) c hc

theorem Memory.below_clear (m : Memory) (lo hi b : Nat) (h : m.below b = true) : (m.clear lo hi).below b = true :=
  Memory.below_filter m _ b h

/-- A smaller bound implies a larger one. -/
theorem Memory.below_mono (m : Memory) (b b' : Nat) (hb : b ≤ b') (h : m.below b = true) : m.below b' = true :=
  (Memory.below_iff b' m).mpr fun c hc => Nat.lt_of_lt_of_le ((Memory.below_iff b m).mp h c hc) hb

/-- The memory after reset is in canonical form. -/
theorem Memory.wf_reset : State.reset.mem.wf = true := rfl

end Sys2Proof.Machine
end

