-- ==== Sys2Proof/Laws/State.lean ====
section
/-! SUPPORT. Laws/State.lean: one lemma per field per update of the state, so that no proof unfolds a record update. -/

namespace Sys2Proof.Machine

variable (s : State)

/-! `setReg`. -/

@[simp] theorem setReg_pc (r : Reg) (v : Word) : (s.setReg r v).pc = s.pc := rfl
@[simp] theorem setReg_e (r : Reg) (v : Word) : (s.setReg r v).e = s.e := rfl
@[simp] theorem setReg_l (r : Reg) (v : Word) : (s.setReg r v).l = s.l := rfl
@[simp] theorem setReg_g (r : Reg) (v : Word) : (s.setReg r v).g = s.g := rfl
@[simp] theorem setReg_mem (r : Reg) (v : Word) : (s.setReg r v).mem = s.mem := rfl
@[simp] theorem setReg_status (r : Reg) (v : Word) : (s.setReg r v).status = s.status := rfl
@[simp] theorem setReg_fault (r : Reg) (v : Word) : (s.setReg r v).fault = s.fault := rfl
@[simp] theorem setReg_out (r : Reg) (v : Word) : (s.setReg r v).out = s.out := rfl

/-! `setSp`. -/

@[simp] theorem setSp_pc (n : Nat) : (s.setSp n).pc = s.pc := rfl
@[simp] theorem setSp_e (n : Nat) : (s.setSp n).e = s.e := rfl
@[simp] theorem setSp_l (n : Nat) : (s.setSp n).l = s.l := rfl
@[simp] theorem setSp_g (n : Nat) : (s.setSp n).g = s.g := rfl
@[simp] theorem setSp_mem (n : Nat) : (s.setSp n).mem = s.mem := rfl
@[simp] theorem setSp_status (n : Nat) : (s.setSp n).status = s.status := rfl
@[simp] theorem setSp_fault (n : Nat) : (s.setSp n).fault = s.fault := rfl
@[simp] theorem setSp_out (n : Nat) : (s.setSp n).out = s.out := rfl

/-! `setPc`. -/

@[simp] theorem setPc_regs (p : Word) : (s.setPc p).regs = s.regs := rfl
@[simp] theorem setPc_pc (p : Word) : (s.setPc p).pc = p := rfl
@[simp] theorem setPc_e (p : Word) : (s.setPc p).e = s.e := rfl
@[simp] theorem setPc_l (p : Word) : (s.setPc p).l = s.l := rfl
@[simp] theorem setPc_g (p : Word) : (s.setPc p).g = s.g := rfl
@[simp] theorem setPc_mem (p : Word) : (s.setPc p).mem = s.mem := rfl
@[simp] theorem setPc_status (p : Word) : (s.setPc p).status = s.status := rfl
@[simp] theorem setPc_fault (p : Word) : (s.setPc p).fault = s.fault := rfl
@[simp] theorem setPc_out (p : Word) : (s.setPc p).out = s.out := rfl
@[simp] theorem setPc_reg (p : Word) (r : Reg) : (s.setPc p).reg r = s.reg r := rfl
@[simp] theorem setPc_sp (p : Word) : (s.setPc p).sp = s.sp := rfl

/-! `advance`. -/

@[simp] theorem advance_regs (n : Nat) : (s.advance n).regs = s.regs := rfl
@[simp] theorem advance_pc (n : Nat) : (s.advance n).pc = BitVec.ofNat Config.regBits (s.pc.toNat + n) := rfl
@[simp] theorem advance_e (n : Nat) : (s.advance n).e = s.e := rfl
@[simp] theorem advance_l (n : Nat) : (s.advance n).l = s.l := rfl
@[simp] theorem advance_g (n : Nat) : (s.advance n).g = s.g := rfl
@[simp] theorem advance_mem (n : Nat) : (s.advance n).mem = s.mem := rfl
@[simp] theorem advance_status (n : Nat) : (s.advance n).status = s.status := rfl
@[simp] theorem advance_fault (n : Nat) : (s.advance n).fault = s.fault := rfl
@[simp] theorem advance_out (n : Nat) : (s.advance n).out = s.out := rfl
@[simp] theorem advance_reg (n : Nat) (r : Reg) : (s.advance n).reg r = s.reg r := rfl
@[simp] theorem advance_sp (n : Nat) : (s.advance n).sp = s.sp := rfl

/-! `setFlags`. -/

@[simp] theorem setFlags_regs (e l g : Bool) : (s.setFlags e l g).regs = s.regs := rfl
@[simp] theorem setFlags_pc (e l g : Bool) : (s.setFlags e l g).pc = s.pc := rfl
@[simp] theorem setFlags_e (e l g : Bool) : (s.setFlags e l g).e = e := rfl
@[simp] theorem setFlags_l (e l g : Bool) : (s.setFlags e l g).l = l := rfl
@[simp] theorem setFlags_g (e l g : Bool) : (s.setFlags e l g).g = g := rfl
@[simp] theorem setFlags_mem (e l g : Bool) : (s.setFlags e l g).mem = s.mem := rfl
@[simp] theorem setFlags_status (e l g : Bool) : (s.setFlags e l g).status = s.status := rfl
@[simp] theorem setFlags_fault (e l g : Bool) : (s.setFlags e l g).fault = s.fault := rfl
@[simp] theorem setFlags_out (e l g : Bool) : (s.setFlags e l g).out = s.out := rfl
@[simp] theorem setFlags_reg (e l g : Bool) (r : Reg) : (s.setFlags e l g).reg r = s.reg r := rfl
@[simp] theorem setFlags_sp (e l g : Bool) : (s.setFlags e l g).sp = s.sp := rfl

/-! `emit`. -/

@[simp] theorem emit_regs (v : Nat) : (s.emit v).regs = s.regs := rfl
@[simp] theorem emit_pc (v : Nat) : (s.emit v).pc = s.pc := rfl
@[simp] theorem emit_e (v : Nat) : (s.emit v).e = s.e := rfl
@[simp] theorem emit_l (v : Nat) : (s.emit v).l = s.l := rfl
@[simp] theorem emit_g (v : Nat) : (s.emit v).g = s.g := rfl
@[simp] theorem emit_mem (v : Nat) : (s.emit v).mem = s.mem := rfl
@[simp] theorem emit_status (v : Nat) : (s.emit v).status = s.status := rfl
@[simp] theorem emit_fault (v : Nat) : (s.emit v).fault = s.fault := rfl
@[simp] theorem emit_out (v : Nat) : (s.emit v).out = s.out ++ [v] := rfl
@[simp] theorem emit_reg (v : Nat) (r : Reg) : (s.emit v).reg r = s.reg r := rfl
@[simp] theorem emit_sp (v : Nat) : (s.emit v).sp = s.sp := rfl

/-! `setMem`. -/

@[simp] theorem setMem_regs (m : Memory) : (s.setMem m).regs = s.regs := rfl
@[simp] theorem setMem_pc (m : Memory) : (s.setMem m).pc = s.pc := rfl
@[simp] theorem setMem_e (m : Memory) : (s.setMem m).e = s.e := rfl
@[simp] theorem setMem_l (m : Memory) : (s.setMem m).l = s.l := rfl
@[simp] theorem setMem_g (m : Memory) : (s.setMem m).g = s.g := rfl
@[simp] theorem setMem_mem (m : Memory) : (s.setMem m).mem = m := rfl
@[simp] theorem setMem_status (m : Memory) : (s.setMem m).status = s.status := rfl
@[simp] theorem setMem_fault (m : Memory) : (s.setMem m).fault = s.fault := rfl
@[simp] theorem setMem_out (m : Memory) : (s.setMem m).out = s.out := rfl
@[simp] theorem setMem_reg (m : Memory) (r : Reg) : (s.setMem m).reg r = s.reg r := rfl
@[simp] theorem setMem_sp (m : Memory) : (s.setMem m).sp = s.sp := rfl

/-! `setStatus`. -/

@[simp] theorem setStatus_regs (st : Status) : (s.setStatus st).regs = s.regs := rfl
@[simp] theorem setStatus_pc (st : Status) : (s.setStatus st).pc = s.pc := rfl
@[simp] theorem setStatus_e (st : Status) : (s.setStatus st).e = s.e := rfl
@[simp] theorem setStatus_l (st : Status) : (s.setStatus st).l = s.l := rfl
@[simp] theorem setStatus_g (st : Status) : (s.setStatus st).g = s.g := rfl
@[simp] theorem setStatus_mem (st : Status) : (s.setStatus st).mem = s.mem := rfl
@[simp] theorem setStatus_status (st : Status) : (s.setStatus st).status = st := rfl
@[simp] theorem setStatus_fault (st : Status) : (s.setStatus st).fault = s.fault := rfl
@[simp] theorem setStatus_out (st : Status) : (s.setStatus st).out = s.out := rfl
@[simp] theorem setStatus_reg (st : Status) (r : Reg) : (s.setStatus st).reg r = s.reg r := rfl
@[simp] theorem setStatus_sp (st : Status) : (s.setStatus st).sp = s.sp := rfl

/-! `raise`. -/

@[simp] theorem raise_regs (c : Cause) : (raise c s).regs = s.regs := rfl
@[simp] theorem raise_pc (c : Cause) : (raise c s).pc = s.pc := rfl
@[simp] theorem raise_e (c : Cause) : (raise c s).e = s.e := rfl
@[simp] theorem raise_l (c : Cause) : (raise c s).l = s.l := rfl
@[simp] theorem raise_g (c : Cause) : (raise c s).g = s.g := rfl
@[simp] theorem raise_mem (c : Cause) : (raise c s).mem = s.mem := rfl
@[simp] theorem raise_status (c : Cause) : (raise c s).status = .faulted := rfl
@[simp] theorem raise_fault (c : Cause) : (raise c s).fault = some (faultRecord c s) := rfl
@[simp] theorem raise_out (c : Cause) : (raise c s).out = s.out := rfl
@[simp] theorem raise_reg (c : Cause) (r : Reg) : (raise c s).reg r = s.reg r := rfl
@[simp] theorem raise_sp (c : Cause) : (raise c s).sp = s.sp := rfl

/-! Reading a register after a write. -/

@[simp] theorem setReg_reg_same (r : Reg) (v : Word) : (s.setReg r v).reg r = v := by
  simp [State.reg, State.setReg]

theorem setReg_reg_ne (r r' : Reg) (v : Word) (h : r' ≠ r) : (s.setReg r v).reg r' = s.reg r' := by
  have : (r : Nat) ≠ (r' : Nat) := fun e => h (Fin.ext e.symm)
  simp [State.reg, State.setReg, this]

theorem setReg_reg (r r' : Reg) (v : Word) : (s.setReg r v).reg r' = if r' = r then v else s.reg r' := by
  by_cases h : r' = r
  · subst h; simp
  · simp [setReg_reg_ne, h]

theorem setSp_reg (r : Reg) (n : Nat) :
    (s.setSp n).reg r = if r = .sp then BitVec.ofNat Config.regBits n else s.reg r := setReg_reg s .sp r _

@[simp] theorem setSp_sp (n : Nat) (h : n < 2 ^ Config.regBits) : (s.setSp n).sp = n := by
  simp [State.sp, setSp_reg, Nat.mod_eq_of_lt h]

theorem setReg_sp_ne (r : Reg) (v : Word) (h : r ≠ .sp) : (s.setReg r v).sp = s.sp := by
  simp [State.sp, setReg_reg_ne s r .sp v (Ne.symm h)]

theorem setReg_sp_same (v : Word) : (s.setReg .sp v).sp = v.toNat := by simp [State.sp]

/-- Two writes to different registers may be made in either order. -/
theorem setReg_comm (r r' : Reg) (v v' : Word) (h : r ≠ r') :
    (s.setReg r v).setReg r' v' = (s.setReg r' v').setReg r v := by
  have : (r : Nat) ≠ (r' : Nat) := fun e => h (Fin.ext e)
  simp [State.setReg, Vector.set_comm _ _ this]

/-- A second write to a register replaces the first. -/
@[simp] theorem setReg_setReg (r : Reg) (v v' : Word) : (s.setReg r v).setReg r v' = s.setReg r v' := by
  simp [State.setReg]

/-- `SP` is a register's value, so it fits one. -/
theorem sp_lt : s.sp < 2 ^ Config.regBits := (s.reg .sp).isLt

/-- Two states with the same registers, one by one, have the same register file. -/
theorem regs_ext (s t : State) (h : ∀ r, t.reg r = s.reg r) : t.regs = s.regs := by
  apply Vector.ext
  intro i hi
  exact h ⟨i, hi⟩

end Sys2Proof.Machine
end

