-- ==== Sys2Proof/Laws/Ops.lean ====
section
/-! SUPPORT. Laws/Ops.lean: for each shared operation, what it can answer, said once. -/

namespace Sys2Proof.Machine

/-! Register fields. -/

@[simp] theorem field_toNat (r : Reg) : r.field.toNat = r.val := by
  have h : r.val < 8 := r.isLt
  simp only [Reg.field, BitVec.toNat_ofNat]
  exact Nat.mod_eq_of_lt (by show r.val < 2 ^ 8; omega)

theorem field_injective (r r' : Reg) (h : r.field = r'.field) : r = r' := by
  apply Fin.ext
  rw [← field_toNat r, ← field_toNat r', h]

/-- A field below 8 is the field of a register. -/
theorem field_of_lt (f : Byte) (h : f.toNat < Config.numRegs) : f = Reg.field ⟨f.toNat, h⟩ := by
  apply BitVec.eq_of_toNat_eq
  simp

@[simp] theorem regOperand_field (r : Reg) : regOperand r.field = .ok r := by
  have h : r.field.toNat < Config.numRegs := by simp
  simp [regOperand]

theorem regOperand_bad (f : Byte) (h : Config.numRegs ≤ f.toNat) :
    regOperand f = .error (.outOfBoundsAccess .register f.toNat) := by
  simp only [regOperand, dif_neg (Nat.not_lt.mpr h)]

/-- A register operand is the register its field names, or the fault of a field of 8 or more. -/
theorem regOperand_cases (f : Byte) :
    (∃ r : Reg, f = r.field ∧ regOperand f = .ok r) ∨
    (Config.numRegs ≤ f.toNat ∧ regOperand f = .error (.outOfBoundsAccess .register f.toNat)) := by
  by_cases h : f.toNat < Config.numRegs
  · exact .inl ⟨_, field_of_lt f h, by simp only [regOperand, dif_pos h]⟩
  · exact .inr ⟨Nat.le_of_not_lt h, regOperand_bad f (Nat.le_of_not_lt h)⟩

@[simp] theorem zext_toNat (v : Byte) : (zext v).toNat = v.toNat := by
  have h : v.toNat < 2 ^ 8 := v.isLt
  simp only [zext, BitVec.toNat_ofNat]
  exact Nat.mod_eq_of_lt (Nat.lt_trans h (by decide))

/-! Faults. -/

@[simp] theorem ok_bind {α β : Type} (a : α) (f : α → Except Cause β) : (Except.ok a >>= f) = f a := rfl

@[simp] theorem error_bind {α β : Type} (c : Cause) (f : α → Except Cause β) :
    ((Except.error c : Except Cause α) >>= f) = .error c := rfl

@[simp] theorem pure_ok {α : Type} (a : α) : (pure a : Except Cause α) = .ok a := rfl

@[simp] theorem raiseIf_pos {p : Prop} [Decidable p] (c : Cause) (h : p) : raiseIf p c = .error c := by
  simp [raiseIf, h]

@[simp] theorem raiseIf_neg {p : Prop} [Decidable p] (c : Cause) (h : ¬ p) : raiseIf p c = .ok () := by
  simp [raiseIf, h]

@[simp] theorem settle_ok (s t : State) : settle s (.ok t) = .next t := rfl

@[simp] theorem settle_error (s : State) (c : Cause) : settle s (.error c) = .next (raise c s) := rfl

/-- An instruction's end is always a next state. -/
theorem settle_total (s : State) (x : Except Cause State) : ∃ t, settle s x = .next t := by
  cases x <;> simp

/-- What a fault leaves, in the terms claims use. -/
theorem raise_faultedAs (c : Cause) (s : State) : FaultedAs c.kind c.kind.code c.detail s (raise c s) where
  status := rfl
  record := rfl
  pc := rfl
  regs := fun _ _ => rfl
  flags := ⟨rfl, rfl, rfl⟩
  mem := fun _ => rfl
  out := rfl

/-! Memory accesses. -/

@[simp] theorem memRead_ok (s : State) (a : Nat) (h : a < Config.memSize) : memRead s a = .ok (s.mem.read a) := by
  simp [memRead, raiseIf_neg _ (Nat.not_le.mpr h)]

@[simp] theorem memRead_error (s : State) (a : Nat) (h : Config.memSize ≤ a) :
    memRead s a = .error (.outOfBoundsAccess .memory a) := by
  simp [memRead, raiseIf_pos _ h]

@[simp] theorem memWrite_ok (s : State) (a v : Nat) (h : a < Config.memSize) (hv : v < 2 ^ Config.cellBits) :
    memWrite s a v = .ok (s.setMem (s.mem.write a (BitVec.ofNat Config.cellBits v))) := by
  simp [memWrite, raiseIf_neg _ (Nat.not_le.mpr h), raiseIf_neg _ (Nat.not_le.mpr hv)]

@[simp] theorem memWrite_address (s : State) (a v : Nat) (h : Config.memSize ≤ a) :
    memWrite s a v = .error (.outOfBoundsAccess .memory a) := by
  simp [memWrite, raiseIf_pos _ h]

@[simp] theorem memWrite_value (s : State) (a v : Nat) (h : a < Config.memSize) (hv : 2 ^ Config.cellBits ≤ v) :
    memWrite s a v = .error (.valueOutOfRange v) := by
  simp [memWrite, raiseIf_neg _ (Nat.not_le.mpr h), raiseIf_pos _ hv]

/-- The fetch, where the window lies inside memory. -/
theorem fetchWindow_ok (s : State) (h : Fetchable s) : fetchWindow s = .ok (windowAt s) := by
  unfold Fetchable at h
  rw [fetchWindow, memRead_ok s _ (by omega), memRead_ok s _ (by omega), memRead_ok s _ h]
  rfl

/-- The fetch, where it does not: the first address outside memory is reported. -/
theorem fetchWindow_error (s : State) (h : ¬ Fetchable s) :
    fetchWindow s = .error (.outOfBoundsAccess .memory (max s.pc.toNat Config.memSize)) := by
  unfold Fetchable at h
  unfold fetchWindow
  by_cases h0 : Config.memSize ≤ s.pc.toNat
  · rw [memRead_error s _ h0, Nat.max_eq_left h0]
    rfl
  · have hm : max s.pc.toNat Config.memSize = Config.memSize := Nat.max_eq_right (by omega)
    rw [memRead_ok s _ (by omega), hm]
    by_cases h1 : Config.memSize ≤ s.pc.toNat + 1
    · have : s.pc.toNat + 1 = Config.memSize := by omega
      rw [this, memRead_error s _ (Nat.le_refl _)]
      rfl
    · have : s.pc.toNat + 2 = Config.memSize := by omega
      rw [memRead_ok s _ (by omega), this, memRead_error s _ (Nat.le_refl _)]
      rfl

/-- Fetch and decode, by what the window spells. -/
theorem fetchDecode_ok (s : State) (i : Instr) (h : Fetchable s) (hd : decode (windowAt s) = .ok i) :
    fetchDecode s = .ok i := by
  simp [fetchDecode, fetchWindow_ok s h, hd]

theorem fetchDecode_rejected (s : State) (e : DecodeError) (h : Fetchable s) (hd : decode (windowAt s) = .error e) :
    fetchDecode s = .error (decodeCause e) := by
  simp [fetchDecode, fetchWindow_ok s h, hd]

theorem fetchDecode_outside (s : State) (h : ¬ Fetchable s) :
    fetchDecode s = .error (.outOfBoundsAccess .memory (max s.pc.toNat Config.memSize)) := by
  simp [fetchDecode, fetchWindow_error s h]

/-! The stack. -/

theorem pushSlot_ok (s : State) (h0 : s.sp ≠ 0) (h1 : s.sp - 1 < Config.memSize) : pushSlot s = .ok (s.sp - 1) := by
  simp [pushSlot, raiseIf_neg _ h0, raiseIf_neg _ (Nat.not_le.mpr h1)]

theorem pushSlot_overflow (s : State) (h : s.sp = 0) : pushSlot s = .error (.stackOverflow 0) := by
  simp [pushSlot, h]

theorem pushSlot_outside (s : State) (h : Config.memSize ≤ s.sp - 1) :
    pushSlot s = .error (.outOfBoundsAccess .memory (s.sp - 1)) := by
  have h0 : s.sp ≠ 0 := by
    intro h0
    rw [h0] at h
    exact absurd h (by decide)
  simp [pushSlot, raiseIf_neg _ h0, raiseIf_pos _ h]

/-- The three answers of `pushSlot`. -/
theorem pushSlot_cases (s : State) :
    (s.sp ≠ 0 ∧ s.sp - 1 < Config.memSize ∧ pushSlot s = .ok (s.sp - 1)) ∨
    (s.sp = 0 ∧ pushSlot s = .error (.stackOverflow 0)) ∨
    (Config.memSize ≤ s.sp - 1 ∧ pushSlot s = .error (.outOfBoundsAccess .memory (s.sp - 1))) := by
  by_cases h0 : s.sp = 0
  · exact .inr (.inl ⟨h0, pushSlot_overflow s h0⟩)
  · by_cases h1 : s.sp - 1 < Config.memSize
    · exact .inl ⟨h0, h1, pushSlot_ok s h0 h1⟩
    · exact .inr (.inr ⟨Nat.le_of_not_lt h1, pushSlot_outside s (Nat.le_of_not_lt h1)⟩)

theorem popByte_ok (s : State) (h : s.sp < Config.memSize) : popByte s = .ok (s.mem.read s.sp) := by
  simp [popByte, h]

theorem popByte_underflow (s : State) (h : Config.memSize ≤ s.sp) : popByte s = .error (.stackUnderflow s.sp) := by
  simp [popByte, raiseIf_pos _ h]

/-! The ALU. -/

theorem writeResult_ok (s : State) (r : Reg) (v : Nat) (h : v < 2 ^ Config.regBits) :
    writeResult s r v = .ok (s.setReg r (BitVec.ofNat Config.regBits v)) := by
  simp [writeResult, raiseIf_neg _ (Nat.not_le.mpr h)]

theorem writeResult_overflow (s : State) (r : Reg) (v : Nat) (h : 2 ^ Config.regBits ≤ v) :
    writeResult s r v = .error (.arithmeticOverflow v) := by
  simp [writeResult, raiseIf_pos _ h]

theorem aluRegisters_add (s : State) (i j : Reg) :
    aluRegisters Tag.add.opcode s i j = writeResult s i ((s.reg i).toNat + (s.reg j).toNat) := rfl

theorem aluRegisters_multiply (s : State) (i j : Reg) :
    aluRegisters Tag.multiply.opcode s i j = writeResult s i ((s.reg i).toNat * (s.reg j).toNat) := rfl

/-- A sequential advance is exact wherever a step executes. -/
theorem advance_exact (s : State) (n : Nat) (hn : n ≤ 3) (h : Fetchable s) :
    (s.advance n).pc.toNat = s.pc.toNat + n := by
  unfold Fetchable at h
  simp only [advance_pc, BitVec.toNat_ofNat]
  apply Nat.mod_eq_of_lt
  show _ < 2 ^ 32
  have : Config.memSize = 512 := rfl
  omega

end Sys2Proof.Machine
end

