-- ==== Sys2Proof/Laws/Decode.lean ====
section
/-! SUPPORT. Laws/Decode.lean: the opcode map, both ways. -/

namespace Sys2Proof

/-- Every row of the map holds its tag's opcode and format. -/
theorem opcodeTable_rows : ∀ row ∈ opcodeTable, row.opcode = row.tag.opcode ∧ row.format = row.tag.format := by decide

@[simp] theorem lookupOpcode_opcode (t : Tag) : lookupOpcode t.opcode = some t := by cases t <;> decide

/-- No two instructions share an opcode. -/
theorem Tag.opcode_injective (t t' : Tag) (h : t.opcode = t'.opcode) : t = t' := by
  have := congrArg lookupOpcode h
  simpa using this

/-- The map selects a tag only by that tag's whole opcode byte. -/
theorem lookupOpcode_eq_some (op : Byte) (t : Tag) : lookupOpcode op = some t ↔ op = t.opcode := by
  constructor
  · intro h
    obtain ⟨row, hrow, rfl⟩ := Option.map_eq_some_iff.mp h
    have hop : row.opcode = op := by simpa using List.find?_some hrow
    exact hop ▸ (opcodeTable_rows row (List.mem_of_find?_eq_some hrow)).1
  · rintro rfl
    exact lookupOpcode_opcode t

/-- A byte that is no tag's opcode selects nothing. -/
theorem lookupOpcode_eq_none (op : Byte) : lookupOpcode op = none ↔ ∀ t : Tag, op ≠ t.opcode := by
  constructor
  · rintro h t rfl
    simp at h
  · intro h
    cases hl : lookupOpcode op with
    | none => rfl
    | some t => exact absurd ((lookupOpcode_eq_some op t).mp hl) (h t)

@[simp] theorem assemble_tag (t : Tag) (a b : Byte) : (assemble t a b).tag = t := by cases t <;> rfl

/-- The decoder's answers: an unknown opcode, a bad field, or a well-formed instruction. -/
theorem decode_cases (w : Window) :
    (lookupOpcode w.op = none ∧ decode w = .error (.invalidOpcode w.op)) ∨
    (∃ t f, lookupOpcode w.op = some t ∧ firstBadField (assemble t w.opA w.opB).regFields = some f ∧
      decode w = .error (.registerOutOfRange f)) ∨
    (∃ t, lookupOpcode w.op = some t ∧ firstBadField (assemble t w.opA w.opB).regFields = none ∧
      decode w = .ok (assemble t w.opA w.opB)) := by
  unfold decode
  cases hl : lookupOpcode w.op with
  | none => exact .inl ⟨rfl, rfl⟩
  | some t =>
    cases hb : firstBadField (assemble t w.opA w.opB).regFields with
    | some f => exact .inr (.inl ⟨t, f, rfl, hb, by simp [hb]⟩)
    | none => exact .inr (.inr ⟨t, rfl, hb, by simp [hb]⟩)

end Sys2Proof
end

