-- ==== Sys2Proof/Laws/Exec.lean ====
section
/-! SUPPORT. Laws/Exec.lean: what an instruction can do, said once. `Completes i s t` says that `i` has its effect in
`s` and leaves `t`; `exec_cases` says that `exec` completes or takes a fault, and `exec_of_completes` is the way back. -/

namespace Sys2Proof.Machine

/-- The instruction has its own effect, under the conditions in which its rule raises nothing. -/
def Completes (i : Instr) (s t : State) : Prop :=
  match i with
  | .halt => t = s.setStatus .halted
  | .ret => s.sp < Config.memSize ∧ t = (s.setSp (s.sp + 1)).setPc (zext (s.mem.read s.sp))
  | .push ra => ∃ a : Reg, ra = a.field ∧ s.sp ≠ 0 ∧ s.sp - 1 < Config.memSize ∧
      ((s.setSp (s.sp - 1)).reg a).toNat < 2 ^ Config.cellBits ∧
      t = ((s.setSp (s.sp - 1)).setMem (s.mem.write (s.sp - 1)
        (BitVec.ofNat Config.cellBits ((s.setSp (s.sp - 1)).reg a).toNat))).advance 2
  | .pop ra => ∃ a : Reg, ra = a.field ∧ s.sp < Config.memSize ∧
      t = ((s.setReg a (zext (s.mem.read s.sp))).setSp ((s.setReg a (zext (s.mem.read s.sp))).sp + 1)).advance 2
  | .printRegister ra => ∃ a : Reg, ra = a.field ∧ t = (s.emit (s.reg a).toNat).advance 2
  | .call ra => ∃ a : Reg, ra = a.field ∧ s.sp ≠ 0 ∧ s.sp - 1 < Config.memSize ∧
      s.pc.toNat + 2 < 2 ^ Config.cellBits ∧
      t = ((s.setSp (s.sp - 1)).setMem (s.mem.write (s.sp - 1)
        (BitVec.ofNat Config.cellBits (s.pc.toNat + 2)))).setPc ((s.setSp (s.sp - 1)).reg a)
  | .jump ra => ∃ a : Reg, ra = a.field ∧ t = s.setPc (s.reg a)
  | .jumpIfEqual ra => ∃ a : Reg, ra = a.field ∧ t = if s.e then s.setPc (s.reg a) else s.advance 2
  | .jumpIfNotEqual ra => ∃ a : Reg, ra = a.field ∧ t = if s.e then s.advance 2 else s.setPc (s.reg a)
  | .loadImmediate rd imm8 => ∃ d : Reg, rd = d.field ∧ t = (s.setReg d (zext imm8)).advance 3
  | .add ra rb => ∃ a b : Reg, ra = a.field ∧ rb = b.field ∧
      (s.reg a).toNat + (s.reg b).toNat < 2 ^ Config.regBits ∧
      t = (s.setReg a (BitVec.ofNat Config.regBits ((s.reg a).toNat + (s.reg b).toNat))).advance 3
  | .multiply ra rb => ∃ a b : Reg, ra = a.field ∧ rb = b.field ∧
      (s.reg a).toNat * (s.reg b).toNat < 2 ^ Config.regBits ∧
      t = (s.setReg a (BitVec.ofNat Config.regBits ((s.reg a).toNat * (s.reg b).toNat))).advance 3
  | .compare ra rb => ∃ a b : Reg, ra = a.field ∧ rb = b.field ∧
      t = (s.compareFlags (s.reg a).toNat (s.reg b).toNat).advance 3

/-- Where an instruction's conditions hold, `exec` answers the state its effect leaves. -/
theorem exec_of_completes (i : Instr) (s t : State) (h : Completes i s t) : exec i s = .next t := by
  cases i with
  | halt => exact congrArg _ (Eq.symm h)
  | ret =>
    obtain ⟨hs, rfl⟩ := h
    simp [exec, execReturn, popByte_ok s hs]
  | push ra =>
    obtain ⟨a, rfl, h0, h1, hv, rfl⟩ := h
    simp [exec, execPush, pushSlot_ok s h0 h1, memWrite_ok _ _ _ h1 hv]
  | pop ra =>
    obtain ⟨a, rfl, hs, rfl⟩ := h
    simp [exec, execPop, popByte_ok s hs]
  | printRegister ra =>
    obtain ⟨a, rfl, rfl⟩ := h
    simp [exec, execPrintRegister]
  | call ra =>
    obtain ⟨a, rfl, h0, h1, hv, rfl⟩ := h
    simp [exec, execCall, pushSlot_ok s h0 h1, memWrite_ok _ _ _ h1 hv]
  | jump ra =>
    obtain ⟨a, rfl, rfl⟩ := h
    simp [exec, execJump, jumpWhen]
  | jumpIfEqual ra =>
    obtain ⟨a, rfl, rfl⟩ := h
    simp [exec, execJumpIfEqual, jumpWhen]
  | jumpIfNotEqual ra =>
    obtain ⟨a, rfl, rfl⟩ := h
    cases he : s.e <;> simp [exec, execJumpIfNotEqual, jumpWhen, he]
  | loadImmediate rd imm8 =>
    obtain ⟨d, rfl, rfl⟩ := h
    simp [exec, execLoadImmediate]
  | add ra rb =>
    obtain ⟨a, b, rfl, rfl, hv, rfl⟩ := h
    simp [exec, execAdd, addIn, aluRegisters_add, writeResult_ok _ _ _ hv]
  | multiply ra rb =>
    obtain ⟨a, b, rfl, rfl, hv, rfl⟩ := h
    simp [exec, execMultiply, aluRegisters_multiply, writeResult_ok _ _ _ hv]
  | compare ra rb =>
    obtain ⟨a, b, rfl, rfl, rfl⟩ := h
    simp [exec, execCompare]

/-- An instruction with a bad register field raises that field's fault. -/
theorem exec_bad_field (i : Instr) (s : State) (f : Byte) (h : firstBadField i.regFields = some f) :
    exec i s = .next (raise (.outOfBoundsAccess .register f.toNat) s) := by
  have one (g : Byte) (hg : firstBadField [g] = some f) : Config.numRegs ≤ g.toNat ∧ g = f := by
    by_cases hc : Config.numRegs ≤ g.toNat
    · exact ⟨hc, by simpa [firstBadField, List.find?_cons, hc] using hg⟩
    · simp [firstBadField, hc] at hg
  have two (g g' : Byte) (hg : firstBadField [g, g'] = some f) :
      (Config.numRegs ≤ g.toNat ∧ g = f) ∨ ((∃ r : Reg, g = r.field) ∧ Config.numRegs ≤ g'.toNat ∧ g' = f) := by
    by_cases hc : Config.numRegs ≤ g.toNat
    · exact .inl ⟨hc, by simpa [firstBadField, List.find?_cons, hc] using hg⟩
    · refine .inr ⟨⟨_, field_of_lt g (Nat.lt_of_not_le hc)⟩, one g' ?_⟩
      simpa [firstBadField, List.find?_cons, hc] using hg
  cases i with
  | halt => simp [Instr.regFields, firstBadField] at h
  | ret => simp [Instr.regFields, firstBadField] at h
  | push ra => obtain ⟨hb, rfl⟩ := one _ h; simp [exec, execPush, regOperand_bad _ hb]
  | pop ra => obtain ⟨hb, rfl⟩ := one _ h; simp [exec, execPop, regOperand_bad _ hb]
  | printRegister ra => obtain ⟨hb, rfl⟩ := one _ h; simp [exec, execPrintRegister, regOperand_bad _ hb]
  | call ra => obtain ⟨hb, rfl⟩ := one _ h; simp [exec, execCall, regOperand_bad _ hb]
  | jump ra => obtain ⟨hb, rfl⟩ := one _ h; simp [exec, execJump, jumpWhen, regOperand_bad _ hb]
  | jumpIfEqual ra =>
    obtain ⟨hb, rfl⟩ := one _ h; simp [exec, execJumpIfEqual, jumpWhen, regOperand_bad _ hb]
  | jumpIfNotEqual ra =>
    obtain ⟨hb, rfl⟩ := one _ h; simp [exec, execJumpIfNotEqual, jumpWhen, regOperand_bad _ hb]
  | loadImmediate rd imm8 =>
    obtain ⟨hb, rfl⟩ := one _ h; simp [exec, execLoadImmediate, regOperand_bad _ hb]
  | add ra rb =>
    obtain ⟨hb, rfl⟩ | ⟨⟨r, rfl⟩, hb, rfl⟩ := two _ _ h <;>
      simp [exec, execAdd, addIn, regOperand_bad _ hb]
  | multiply ra rb =>
    obtain ⟨hb, rfl⟩ | ⟨⟨r, rfl⟩, hb, rfl⟩ := two _ _ h <;>
      simp [exec, execMultiply, regOperand_bad _ hb]
  | compare ra rb =>
    obtain ⟨hb, rfl⟩ | ⟨⟨r, rfl⟩, hb, rfl⟩ := two _ _ h <;>
      simp [exec, execCompare, regOperand_bad _ hb]

/-- The fields of a well-formed instruction are registers. -/
theorem fields_cases (i : Instr) :
    (∃ f, firstBadField i.regFields = some f ∧ i.wf = false) ∨
    (firstBadField i.regFields = none ∧ i.wf = true ∧ ∀ f ∈ i.regFields, ∃ r : Reg, f = r.field) := by
  unfold firstBadField
  cases h : i.regFields.find? fun f => decide (Config.numRegs ≤ f.toNat) with
  | some f =>
    refine .inl ⟨f, rfl, ?_⟩
    have hf : Config.numRegs ≤ f.toNat := by simpa using List.find?_some h
    simp only [Instr.wf, List.all_eq_false]
    exact ⟨f, List.mem_of_find?_eq_some h, by simpa using hf⟩
  | none =>
    rw [List.find?_eq_none] at h
    have lt : ∀ f ∈ i.regFields, f.toNat < Config.numRegs := fun f hf => by simpa using h f hf
    refine .inr ⟨rfl, ?_, fun f hf => ⟨_, field_of_lt f (lt f hf)⟩⟩
    simp only [Instr.wf, List.all_eq_true]
    exact fun f hf => by simpa using lt f hf

/-- `exec` either completes, or takes a fault on the state it started in; never `UnsupportedOperation`. -/
theorem exec_cases (i : Instr) (s : State) :
    (∃ t, Completes i s t ∧ exec i s = .next t) ∨
    (∃ c : Cause, c.kind ≠ .unsupportedOperation ∧ exec i s = .next (raise c s)) := by
  rcases fields_cases i with ⟨f, hf, -⟩ | ⟨-, -, hf⟩
  · exact .inr ⟨_, by simp [Cause.kind], exec_bad_field i s f hf⟩
  have done (t : State) (h : Completes i s t) :
      (∃ t, Completes i s t ∧ exec i s = .next t) ∨
      (∃ c : Cause, c.kind ≠ .unsupportedOperation ∧ exec i s = .next (raise c s)) :=
    .inl ⟨t, h, exec_of_completes i s t h⟩
  cases i with
  | halt => exact done _ rfl
  | ret =>
    by_cases hs : s.sp < Config.memSize
    · exact done _ ⟨hs, rfl⟩
    · exact .inr ⟨.stackUnderflow s.sp, by simp [Cause.kind], by
        simp [exec, execReturn, popByte_underflow s (Nat.le_of_not_lt hs)]⟩
  | push ra =>
    obtain ⟨a, rfl⟩ := hf ra (by simp [Instr.regFields])
    rcases pushSlot_cases s with ⟨h0, h1, hp⟩ | ⟨-, hp⟩ | ⟨-, hp⟩
    · by_cases hv : ((s.setSp (s.sp - 1)).reg a).toNat < 2 ^ Config.cellBits
      · exact done _ ⟨a, rfl, h0, h1, hv, rfl⟩
      · exact .inr ⟨.valueOutOfRange ((s.setSp (s.sp - 1)).reg a).toNat, by simp [Cause.kind], by
          simp [exec, execPush, hp, memWrite_value _ _ _ h1 (Nat.le_of_not_lt hv)]⟩
    · exact .inr ⟨.stackOverflow 0, by simp [Cause.kind], by simp [exec, execPush, hp]⟩
    · exact .inr ⟨.outOfBoundsAccess .memory (s.sp - 1), by simp [Cause.kind], by simp [exec, execPush, hp]⟩
  | pop ra =>
    obtain ⟨a, rfl⟩ := hf ra (by simp [Instr.regFields])
    by_cases hs : s.sp < Config.memSize
    · exact done _ ⟨a, rfl, hs, rfl⟩
    · exact .inr ⟨.stackUnderflow s.sp, by simp [Cause.kind], by
        simp [exec, execPop, popByte_underflow s (Nat.le_of_not_lt hs)]⟩
  | printRegister ra =>
    obtain ⟨a, rfl⟩ := hf ra (by simp [Instr.regFields])
    exact done _ ⟨a, rfl, rfl⟩
  | call ra =>
    obtain ⟨a, rfl⟩ := hf ra (by simp [Instr.regFields])
    rcases pushSlot_cases s with ⟨h0, h1, hp⟩ | ⟨-, hp⟩ | ⟨-, hp⟩
    · by_cases hv : s.pc.toNat + 2 < 2 ^ Config.cellBits
      · exact done _ ⟨a, rfl, h0, h1, hv, rfl⟩
      · exact .inr ⟨.valueOutOfRange (s.pc.toNat + 2), by simp [Cause.kind], by
          simp [exec, execCall, hp, memWrite_value _ _ _ h1 (Nat.le_of_not_lt hv)]⟩
    · exact .inr ⟨.stackOverflow 0, by simp [Cause.kind], by simp [exec, execCall, hp]⟩
    · exact .inr ⟨.outOfBoundsAccess .memory (s.sp - 1), by simp [Cause.kind], by simp [exec, execCall, hp]⟩
  | jump ra =>
    obtain ⟨a, rfl⟩ := hf ra (by simp [Instr.regFields])
    exact done _ ⟨a, rfl, rfl⟩
  | jumpIfEqual ra =>
    obtain ⟨a, rfl⟩ := hf ra (by simp [Instr.regFields])
    exact done _ ⟨a, rfl, rfl⟩
  | jumpIfNotEqual ra =>
    obtain ⟨a, rfl⟩ := hf ra (by simp [Instr.regFields])
    exact done _ ⟨a, rfl, rfl⟩
  | loadImmediate rd imm8 =>
    obtain ⟨d, rfl⟩ := hf rd (by simp [Instr.regFields])
    exact done _ ⟨d, rfl, rfl⟩
  | add ra rb =>
    obtain ⟨a, rfl⟩ := hf ra (by simp [Instr.regFields])
    obtain ⟨b, rfl⟩ := hf rb (by simp [Instr.regFields])
    by_cases hv : (s.reg a).toNat + (s.reg b).toNat < 2 ^ Config.regBits
    · exact done _ ⟨a, b, rfl, rfl, hv, rfl⟩
    · exact .inr ⟨.arithmeticOverflow ((s.reg a).toNat + (s.reg b).toNat), by simp [Cause.kind], by
        simp [exec, execAdd, addIn, aluRegisters_add, writeResult_overflow _ _ _ (Nat.le_of_not_lt hv)]⟩
  | multiply ra rb =>
    obtain ⟨a, rfl⟩ := hf ra (by simp [Instr.regFields])
    obtain ⟨b, rfl⟩ := hf rb (by simp [Instr.regFields])
    by_cases hv : (s.reg a).toNat * (s.reg b).toNat < 2 ^ Config.regBits
    · exact done _ ⟨a, b, rfl, rfl, hv, rfl⟩
    · exact .inr ⟨.arithmeticOverflow ((s.reg a).toNat * (s.reg b).toNat), by simp [Cause.kind], by
        simp [exec, execMultiply, aluRegisters_multiply, writeResult_overflow _ _ _ (Nat.le_of_not_lt hv)]⟩
  | compare ra rb =>
    obtain ⟨a, rfl⟩ := hf ra (by simp [Instr.regFields])
    obtain ⟨b, rfl⟩ := hf rb (by simp [Instr.regFields])
    exact done _ ⟨a, b, rfl, rfl, rfl⟩

/-! What completing keeps, one lemma per kind of state. -/

/-- Completing keeps the fault record, and the status unless the instruction is HALT. -/
theorem completes_run (i : Instr) (s t : State) (h : Completes i s t) :
    t.fault = s.fault ∧
      ((i ≠ .halt ∧ t.status = s.status) ∨ (i = .halt ∧ t = s.setStatus .halted)) := by
  cases i <;> simp only [Completes] at h
  case halt => exact ⟨by rw [h]; rfl, .inr ⟨rfl, h⟩⟩
  case ret => obtain ⟨-, rfl⟩ := h; exact ⟨rfl, .inl ⟨by simp, rfl⟩⟩
  case jumpIfEqual | jumpIfNotEqual => obtain ⟨a, -, rfl⟩ := h; split <;> exact ⟨rfl, .inl ⟨by simp, rfl⟩⟩
  case printRegister | jump | loadImmediate => obtain ⟨a, -, rfl⟩ := h; exact ⟨rfl, .inl ⟨by simp, rfl⟩⟩
  case pop => obtain ⟨a, -, -, rfl⟩ := h; exact ⟨rfl, .inl ⟨by simp, rfl⟩⟩
  case push | call => obtain ⟨a, -, -, -, -, rfl⟩ := h; exact ⟨rfl, .inl ⟨by simp, rfl⟩⟩
  case add | multiply => obtain ⟨a, b, -, -, -, rfl⟩ := h; exact ⟨rfl, .inl ⟨by simp, rfl⟩⟩
  case compare => obtain ⟨a, b, -, -, rfl⟩ := h; exact ⟨rfl, .inl ⟨by simp, rfl⟩⟩

/-- Completing keeps memory, or is a PUSH or CALL that wrote one byte at `SP - 1`. -/
theorem completes_mem (i : Instr) (s t : State) (h : Completes i s t) :
    (i.tag ≠ .push ∧ i.tag ≠ .call ∧ t.mem = s.mem) ∨
    ((i.tag = .push ∨ i.tag = .call) ∧ s.sp ≠ 0 ∧ s.sp - 1 < Config.memSize ∧
      ∃ v, t.mem = s.mem.write (s.sp - 1) v) := by
  cases i <;> simp only [Completes] at h
  case push => obtain ⟨a, -, h0, h1, -, rfl⟩ := h; exact .inr ⟨.inl rfl, h0, h1, _, rfl⟩
  case call => obtain ⟨a, -, h0, h1, -, rfl⟩ := h; exact .inr ⟨.inr rfl, h0, h1, _, rfl⟩
  all_goals refine .inl ⟨by simp [Instr.tag], by simp [Instr.tag], ?_⟩
  case halt => rw [h]; rfl
  case ret => obtain ⟨-, rfl⟩ := h; rfl
  case jumpIfEqual | jumpIfNotEqual => obtain ⟨a, -, rfl⟩ := h; split <;> rfl
  case printRegister | jump | loadImmediate => obtain ⟨a, -, rfl⟩ := h; rfl
  case pop => obtain ⟨a, -, -, rfl⟩ := h; rfl
  case add | multiply => obtain ⟨a, b, -, -, -, rfl⟩ := h; rfl
  case compare => obtain ⟨a, b, -, -, rfl⟩ := h; rfl

/-- Completing keeps the flags, unless the instruction is COMPARE. -/
theorem completes_flags (i : Instr) (s t : State) (h : Completes i s t) (hi : i.tag ≠ .compare) : FlagsKept s t := by
  cases i <;> simp only [Completes] at h
  case compare => exact absurd rfl hi
  case halt => rw [h]; exact ⟨rfl, rfl, rfl⟩
  case ret => obtain ⟨-, rfl⟩ := h; exact ⟨rfl, rfl, rfl⟩
  case jumpIfEqual | jumpIfNotEqual => obtain ⟨a, -, rfl⟩ := h; split <;> exact ⟨rfl, rfl, rfl⟩
  case printRegister | jump | loadImmediate => obtain ⟨a, -, rfl⟩ := h; exact ⟨rfl, rfl, rfl⟩
  case pop => obtain ⟨a, -, -, rfl⟩ := h; exact ⟨rfl, rfl, rfl⟩
  case push | call => obtain ⟨a, -, -, -, -, rfl⟩ := h; exact ⟨rfl, rfl, rfl⟩
  case add | multiply => obtain ⟨a, b, -, -, -, rfl⟩ := h; exact ⟨rfl, rfl, rfl⟩

/-- Completing keeps the output, or is a PRINT_REGISTER that appended its register's value. -/
theorem completes_out (i : Instr) (s t : State) (h : Completes i s t) :
    t.out = s.out ∨ ∃ a : Reg, i = .printRegister a.field ∧ t.out = s.out ++ [(s.reg a).toNat] := by
  cases i <;> simp only [Completes] at h
  case printRegister => obtain ⟨a, rfl, rfl⟩ := h; exact .inr ⟨a, rfl, rfl⟩
  all_goals left
  case halt => rw [h]; rfl
  case ret => obtain ⟨-, rfl⟩ := h; rfl
  case jumpIfEqual | jumpIfNotEqual => obtain ⟨a, -, rfl⟩ := h; split <;> rfl
  case jump | loadImmediate => obtain ⟨a, -, rfl⟩ := h; rfl
  case pop => obtain ⟨a, -, -, rfl⟩ := h; rfl
  case push | call => obtain ⟨a, -, -, -, -, rfl⟩ := h; rfl
  case add | multiply => obtain ⟨a, b, -, -, -, rfl⟩ := h; rfl
  case compare => obtain ⟨a, b, -, -, rfl⟩ := h; rfl

end Sys2Proof.Machine
end

