-- ==== Sys2Proof/Laws/PerInstr.lean ====
section
/-! SUPPORT. Laws/PerInstr.lean: statements for all instructions, one lemma per constructor. The family EncodeShape:
the first byte of an encoding is the tag's opcode, its length is the instruction's width, and its operand bytes, the
missing ones taken as any byte, are the fields the tag's format assigns (30_encoding.md R71, R75). -/

namespace Sys2Proof.Laws.EncodeShape

/-- The shape of an instruction's encoding. -/
def Statement (i : Instr) : Prop :=
  (encode i).length = i.width ∧
    ∀ w : Window, encode i <+: w.bytes → w.op = i.tag.opcode ∧ assemble i.tag w.opA w.opB = i

theorem halt : Statement .halt := by
  simp [Statement, encode, Instr.width, Instr.tag, Tag.format, Format.width, Window.bytes, assemble, eq_comm]

theorem ret : Statement .ret := by
  simp [Statement, encode, Instr.width, Instr.tag, Tag.format, Format.width, Window.bytes, assemble, eq_comm]

/-- The shape of a one-register instruction. -/
theorem one_register (t : Tag) (c : Byte → Instr) (ra : Byte) (ht : (c ra).tag = t)
    (he : encode (c ra) = [t.opcode, ra]) (hf : t.format = .r) (ha : ∀ a b, assemble t a b = c a) : Statement (c ra) := by
  refine ⟨by simp [he, Instr.width, ht, hf, Format.width], fun w h => ?_⟩
  rw [he] at h
  simp [Window.bytes] at h
  rw [ht, ha, h.2]
  exact ⟨h.1.symm, rfl⟩

/-- The shape of an instruction of two operand bytes. -/
theorem two_operands (t : Tag) (c : Byte → Byte → Instr) (ra rb : Byte) (ht : (c ra rb).tag = t)
    (he : encode (c ra rb) = [t.opcode, ra, rb]) (hf : t.format.width = 3) (ha : ∀ a b, assemble t a b = c a b) :
    Statement (c ra rb) := by
  refine ⟨by simp [he, Instr.width, ht, hf], fun w h => ?_⟩
  rw [he] at h
  simp [Window.bytes] at h
  rw [ht, ha, h.2.1, h.2.2]
  exact ⟨h.1.symm, rfl⟩

theorem push (ra : Byte) : Statement (.push ra) := one_register .push .push ra rfl rfl rfl fun _ _ => rfl

theorem pop (ra : Byte) : Statement (.pop ra) := one_register .pop .pop ra rfl rfl rfl fun _ _ => rfl

theorem printRegister (ra : Byte) : Statement (.printRegister ra) :=
  one_register .printRegister .printRegister ra rfl rfl rfl fun _ _ => rfl

theorem call (ra : Byte) : Statement (.call ra) := one_register .call .call ra rfl rfl rfl fun _ _ => rfl

theorem jump (ra : Byte) : Statement (.jump ra) := one_register .jump .jump ra rfl rfl rfl fun _ _ => rfl

theorem jumpIfEqual (ra : Byte) : Statement (.jumpIfEqual ra) :=
  one_register .jumpIfEqual .jumpIfEqual ra rfl rfl rfl fun _ _ => rfl

theorem jumpIfNotEqual (ra : Byte) : Statement (.jumpIfNotEqual ra) :=
  one_register .jumpIfNotEqual .jumpIfNotEqual ra rfl rfl rfl fun _ _ => rfl

theorem loadImmediate (rd imm8 : Byte) : Statement (.loadImmediate rd imm8) :=
  two_operands .loadImmediate .loadImmediate rd imm8 rfl rfl rfl fun _ _ => rfl

theorem add (ra rb : Byte) : Statement (.add ra rb) := two_operands .add .add ra rb rfl rfl rfl fun _ _ => rfl

theorem multiply (ra rb : Byte) : Statement (.multiply ra rb) :=
  two_operands .multiply .multiply ra rb rfl rfl rfl fun _ _ => rfl

theorem compare (ra rb : Byte) : Statement (.compare ra rb) :=
  two_operands .compare .compare ra rb rfl rfl rfl fun _ _ => rfl

end Sys2Proof.Laws.EncodeShape
end

