-- ==== Sys2Proof/Laws/Step.lean ====
section
/-! SUPPORT. Laws/Step.lean: what a step can do, said once. -/

namespace Sys2Proof.Machine

theorem step_running (s : State) (h : s.status = .running) : step s = runStep s := by simp [step, h]

/-- The three ways a running step goes: the window is not in memory, it spells no instruction, or the instruction it
spells executes. -/
theorem runStep_cases (s : State) :
    (¬ Fetchable s ∧ runStep s = .next (raise (.outOfBoundsAccess .memory (max s.pc.toNat Config.memSize)) s)) ∨
    (Fetchable s ∧ ∃ e, decode (windowAt s) = .error e ∧ runStep s = .next (raise (decodeCause e) s)) ∨
    (Fetchable s ∧ ∃ i, decode (windowAt s) = .ok i ∧ runStep s = exec i s) := by
  by_cases hf : Fetchable s
  · cases hd : decode (windowAt s) with
    | error e => exact .inr (.inl ⟨hf, e, rfl, by simp [runStep, fetchDecode_rejected s e hf hd]⟩)
    | ok i => exact .inr (.inr ⟨hf, i, rfl, by simp [runStep, fetchDecode_ok s i hf hd]⟩)
  · exact .inl ⟨hf, by simp [runStep, fetchDecode_outside s hf]⟩

/-- A step that answers a next state: the core was running, and either took a fault, or an instruction completed. -/
theorem step_next_cases (s t : State) (h : step s = .next t) :
    s.status = .running ∧
    ((∃ c : Cause, c.kind ≠ .unsupportedOperation ∧ t = raise c s) ∨
     (Fetchable s ∧ ∃ i, decode (windowAt s) = .ok i ∧ Completes i s t)) := by
  have hr : s.status = .running := by
    cases hs : s.status <;> simp [step, hs] at h ⊢
  refine ⟨hr, ?_⟩
  rw [step_running s hr] at h
  rcases runStep_cases s with ⟨-, he⟩ | ⟨-, e, -, he⟩ | ⟨hf, i, hd, he⟩
  · exact .inl ⟨.outOfBoundsAccess .memory (max s.pc.toNat Config.memSize), by simp [Cause.kind], by
      simpa [he] using h.symm⟩
  · exact .inl ⟨decodeCause e, by cases e <;> simp [decodeCause, Cause.kind], by simpa [he] using h.symm⟩
  · rcases exec_cases i s with ⟨t', hc, hx⟩ | ⟨c, hk, hx⟩
    · have : t' = t := by simpa [he, hx] using h
      exact .inr ⟨hf, i, hd, this ▸ hc⟩
    · exact .inl ⟨c, hk, by simpa [he, hx] using h.symm⟩

end Sys2Proof.Machine
end

