-- ==== Sys2Proof/Laws/Run.lean ====
section
/-! SUPPORT. Laws/Run.lean: the equations of a run, one per way its first step can go, and those of a
sequence of steps. -/

namespace Sys2Proof.Machine

theorem runUnder_loading (n : Nat) (s : State) (h : s.status = .loading) :
    runUnder n s = .refused (.noStep .loading) := by unfold runUnder; rw [h]

theorem runUnder_halted (n : Nat) (s : State) (h : s.status = .halted) : runUnder n s = .halted s := by
  unfold runUnder; rw [h]

theorem runUnder_faulted (n : Nat) (s : State) (h : s.status = .faulted) : runUnder n s = .faulted s := by
  unfold runUnder; rw [h]

theorem runUnder_no_fuel (s : State) (h : s.status = .running) : runUnder 0 s = .outOfFuel s := by
  unfold runUnder; rw [h]

theorem runUnder_step (n : Nat) (s t : State) (h : step s = .next t) : runUnder (n + 1) s = runUnder n t := by
  rw [runUnder, (step_next_cases s t h).1]
  simp [h]

@[simp] theorem stepsTo_zero (s t : State) : StepsTo 0 s t ↔ s = t :=
  ⟨fun h => by cases h; rfl, fun h => h ▸ .refl s⟩

/-- The first of `n + 1` steps is the step of `s`. -/
theorem stepsTo_succ (n : Nat) (s u t : State) (h : step s = .next u) : StepsTo (n + 1) s t ↔ StepsTo n u t := by
  refine ⟨fun hs => ?_, fun hr => .step n s u t h hr⟩
  cases hs with
  | step _ _ v _ hv rest => exact Host.Outcome.next.inj (hv.symm.trans h) ▸ rest

/-- Where no step exists, the only step sequence is the empty one. -/
theorem stepsTo_stopped (n : Nat) (s t : State) (h : s.status ≠ .running) : StepsTo n s t ↔ n = 0 ∧ s = t := by
  refine ⟨fun hs => ?_, fun ⟨hn, ht⟩ => hn ▸ ht ▸ .refl s⟩
  cases hs with
  | refl => exact ⟨rfl, rfl⟩
  | step _ _ v _ hv _ => exact absurd (step_next_cases s v hv).1 h

theorem hostRun_loading (n : Nat) (s : State) (h : s.status = .loading) :
    hostRun n s = runUnder n (startRun s) := by simp [hostRun, hostStart, h]

theorem hostRun_refused (n : Nat) (s : State) (h : s.status ≠ .loading) :
    hostRun n s = .refused .startNotAdmitted := by simp [hostRun, hostStart, h]

end Sys2Proof.Machine
end

