-- ==== Sys2Proof/Tests/Slice0.lean ====
section
/-! SUPPORT. Tests/Slice0.lean: the model's own tests. Expected results are those of spec/95_test_vectors.md, whose
ids stand in the comments; the words are written out from the encodings of 30_encoding.md R71, R75 and R85. At the end,
for each obligation with hypotheses, a concrete state and operands that meet them, at boundary values. -/

namespace Sys2Proof.Tests

open Sys2Proof Sys2Proof.Machine

/-! Helpers: the default start state of 95_test_vectors.md section 0, with registers, memory bytes and `pc` set. -/

/-- Bytes at consecutive addresses. -/
def poke : List Nat → Nat → State → State
  | [], _, s => s
  | b :: bs, a, s => poke bs (a + 1) (s.setMem (s.mem.write a (BitVec.ofNat 8 b)))

/-- Registers set to values. -/
def withRegs : List (Reg × Nat) → State → State
  | [], s => s
  | (r, v) :: rest, s => withRegs rest (s.setReg r (BitVec.ofNat 32 v))

/-- The default start state with the bytes at `a`, `pc = a`, and the registers. -/
def start (a : Nat) (bytes : List Nat) (regs : List (Reg × Nat)) : State :=
  withRegs regs (poke bytes a ((startRun State.reset).setPc (BitVec.ofNat 32 a)))

/-- A view of the next state, if there is one. -/
def after {α : Type} (o : Result) (view : State → α) : Option α :=
  match o with
  | .next t => some (view t)
  | .fault _ => none
  | .refused _ => none

/-- The status and the fault record. -/
def faultOf (t : State) : Status × Option FaultRecord := (t.status, t.fault)

/-! Well-formedness: a field of 8 is refused, in each register field. -/

theorem test_wf_refuses_ra : (Instr.push 8).wf = false := by decide
theorem test_wf_refuses_rd : (Instr.loadImmediate 8 0).wf = false := by decide
theorem test_wf_refuses_rb : (Instr.add 7 8).wf = false := by decide
theorem test_wf_accepts_seven_and_any_immediate : (Instr.loadImmediate 7 255).wf = true := by decide

/-! Decoding: each opcode in binary from R75, each operand byte from R71. -/

theorem test_decode_halt : decode ⟨0b00000001, 0xFF, 0xFF⟩ = .ok .halt := by decide
theorem test_decode_return : decode ⟨0b00010001, 0x63, 0x63⟩ = .ok .ret := by decide
theorem test_decode_push : decode ⟨0b01000101, 0b00000001, 0xFF⟩ = .ok (.push 1) := by decide
theorem test_decode_pop : decode ⟨0b01000110, 0b00000000, 0xFF⟩ = .ok (.pop 0) := by decide
theorem test_decode_print_register : decode ⟨0b01000111, 0b00000111, 0xFF⟩ = .ok (.printRegister 7) := by decide
theorem test_decode_call : decode ⟨0b01010000, 0b00000010, 0xFF⟩ = .ok (.call 2) := by decide
theorem test_decode_jump : decode ⟨0b01010100, 0b00000011, 0xFF⟩ = .ok (.jump 3) := by decide
theorem test_decode_jump_if_equal : decode ⟨0b01010101, 0b00000010, 0xFF⟩ = .ok (.jumpIfEqual 2) := by decide
theorem test_decode_jump_if_not_equal : decode ⟨0b01010110, 0b00000100, 0xFF⟩ = .ok (.jumpIfNotEqual 4) := by decide
theorem test_decode_load_immediate : decode ⟨0b10000010, 0b00000000, 0b00001000⟩ = .ok (.loadImmediate 0 8) := by decide
theorem test_decode_add : decode ⟨0b10100000, 0b00000001, 0b00000010⟩ = .ok (.add 1 2) := by decide
theorem test_decode_multiply : decode ⟨0b10100010, 0b00000000, 0b00000001⟩ = .ok (.multiply 0 1) := by decide
theorem test_decode_compare : decode ⟨0b10100111, 0b00000101, 0b00000110⟩ = .ok (.compare 5 6) := by decide
/- D-2, D-10, D-11 -/
theorem test_decode_rejects_unknown : decode ⟨0xA1, 0, 0⟩ = .error (.invalidOpcode 0xA1) := by decide
theorem test_decode_rejects_rb : decode ⟨0xA0, 0x01, 0x08⟩ = .error (.registerOutOfRange 8) := by decide
theorem test_decode_rejects_ra_first : decode ⟨0xA0, 0x09, 0x08⟩ = .error (.registerOutOfRange 9) := by decide
/- R85 -/
theorem test_encode_load_immediate : encode (.loadImmediate 0 8) = [0x82, 0x00, 0x08] := by decide
theorem test_table_word_operands_follow : decodeTableWord 24 0x0800A0 = none ∧ decodeTableWord 24 0x0700A0 = some (.add 0 7) := by
  decide
/-- 13 opcode bytes are taken, all different, so that 243 are invalid (R78). -/
theorem test_opcode_bytes_differ :
    (opcodeTable.map OpcodeRow.opcode).Nodup ∧ opcodeTable.length + 243 = 256 := by decide

/-! Fetch and decode faults: D-1, D-5, D-6, D-7, D-8, D-9. -/

theorem test_empty_image_faults : after (step (start 0 [] [])) faultOf =
    some (.faulted, some ⟨.invalidOpcode, 1, 0, some 0, .opcode 0⟩) := by decide
theorem test_halt_at_510_faults : after (step (start 510 [1] [])) faultOf =
    some (.faulted, some ⟨.outOfBoundsAccess, 2, 510, some 1, .access .memory 512⟩) := by decide
theorem test_return_at_511_faults : after (step (start 511 [0x11] [])) faultOf =
    some (.faulted, some ⟨.outOfBoundsAccess, 2, 511, some 0x11, .access .memory 512⟩) := by decide
theorem test_pc_600_faults : after (step (start 600 [] [])) faultOf =
    some (.faulted, some ⟨.outOfBoundsAccess, 2, 600, none, .access .memory 600⟩) := by decide
theorem test_window_before_field : after (step (start 510 [0x47, 0x09] [])) faultOf =
    some (.faulted, some ⟨.outOfBoundsAccess, 2, 510, some 71, .access .memory 512⟩) := by decide
theorem test_field_8_faults : after (step (start 0 [0x47, 0x08] [])) faultOf =
    some (.faulted, some ⟨.outOfBoundsAccess, 2, 0, some 71, .access .register 8⟩) := by decide

/-! The loop's instructions: D-4, L-3, L-5, L-9, L-10. -/

theorem test_halt_at_509 : after (step (start 509 [1] [])) (fun t => (t.status, t.pc.toNat)) = some (.halted, 509) := by
  decide
theorem test_load_immediate_zero_extends : after (step (start 0 [0x82, 5, 0xFF] []))
    (fun t => ((t.reg 5).toNat, t.pc.toNat)) = some (255, 3) := by decide
theorem test_load_immediate_sp : after (step (start 0 [0x82, 7, 0x64] [])) State.sp = some 100 := by decide
theorem test_print_full_value : after (step (start 0 [0x47, 3] [(3, 4294967295)]))
    (fun t => (t.out, t.pc.toNat)) = some ([4294967295], 2) := by decide
theorem test_print_appends : after (step ((start 0 [0x47, 1] [(1, 2)]).emit 1)) State.out = some [1, 2] := by decide

/-! The ALU: A-1, A-2, A-4, A-6, A-10, A-13. -/

theorem test_add : after (step (start 12 [0xA0, 0, 2] [(0, 5), (2, 1)]))
    (fun t => ((t.reg 0).toNat, (t.reg 2).toNat, t.pc.toNat)) = some (6, 1, 15) := by decide
theorem test_add_reference_mode : after (addIn .referenceR0 0 2 (start 12 [0xA0, 0, 2] [(0, 5), (2, 1)]))
    (fun t => ((t.reg 0).toNat, t.pc.toNat)) = some (10, 15) := by decide
theorem test_add_reference_mode_checks_fields : after (addIn .referenceR0 9 4 (start 0 [0xA0, 9, 4] [(0, 5)])) faultOf =
    some (.faulted, some ⟨.outOfBoundsAccess, 2, 0, some 160, .access .register 9⟩) := by decide
theorem test_add_overflow : after (step (start 0 [0xA0, 0, 1] [(0, 4294967295), (1, 1)]))
    (fun t => (faultOf t, (t.reg 0).toNat)) =
    some ((.faulted, some ⟨.arithmeticOverflow, 7, 0, some 160, .value 4294967296⟩), 4294967295) := by decide
theorem test_multiply : after (step (start 6 [0xA2, 0, 1] [(0, 5), (1, 6)]))
    (fun t => ((t.reg 0).toNat, (t.reg 1).toNat, t.pc.toNat)) = some (30, 6, 9) := by decide
theorem test_multiply_overflow : after (step (start 0 [0xA2, 0, 1] [(0, 65536), (1, 65536)])) faultOf =
    some (.faulted, some ⟨.arithmeticOverflow, 7, 0, some 162, .value 4294967296⟩) := by decide

/-! The stack: S-2, S-3, S-9, S-11, S-12, S-15, S-16, S-17, S-18, S-20, S-21. -/

theorem test_push_r7_value_out_of_range : after (step (start 0 [0x45, 7] [])) (fun t => (faultOf t, t.sp)) =
    some ((.faulted, some ⟨.valueOutOfRange, 6, 0, some 69, .value 510⟩), 511) := by decide
theorem test_push_r7_pushes_decremented_sp : after (step (start 0 [0x45, 7] [(7, 200)]))
    (fun t => (t.sp, t.mem.read 199, t.pc.toNat)) = some (199, 199, 2) := by decide
theorem test_push_into_program : after (step (start 0 [0x45, 0] [(7, 1), (0, 17)]))
    (fun t => (t.sp, t.mem.read 0, t.status)) = some (0, 17, .running) := by decide
theorem test_pop_r7_increments_after : after (step (poke [40] 300 (start 0 [0x46, 7] [(7, 300)]))) State.sp = some 41 := by
  decide
theorem test_pop_empty_stack : after (step (start 0 [0x46, 0] [(0, 9)])) (fun t => ((t.reg 0).toNat, t.sp)) =
    some (0, 512) := by decide
theorem test_call_r7 : after (step (start 0 [0x50, 7] [(7, 100)])) (fun t => (t.sp, t.mem.read 99, t.pc.toNat)) =
    some (99, 2, 99) := by decide
theorem test_call_at_253 : after (step (start 253 [0x50, 1] [(1, 5)])) (fun t => (t.sp, t.mem.read 510, t.pc.toNat)) =
    some (510, 255, 5) := by decide
theorem test_call_at_254_faults : after (step (start 254 [0x50, 1] [(1, 5)])) faultOf =
    some (.faulted, some ⟨.valueOutOfRange, 6, 254, some 80, .value 256⟩) := by decide
theorem test_call_overflow_first : after (step (start 300 [0x50, 1] [(7, 0)])) faultOf =
    some (.faulted, some ⟨.stackOverflow, 4, 300, some 80, .value 0⟩) := by decide
theorem test_return : after (step (poke [8] 510 (start 14 [0x11] [(7, 510)]))) (fun t => (t.pc.toNat, t.sp)) =
    some (8, 511) := by decide
theorem test_return_underflow : after (step (start 0 [0x11] [(7, 512)])) faultOf =
    some (.faulted, some ⟨.stackUnderflow, 3, 0, some 17, .value 512⟩) := by decide

/-! Compare and branch: B-2, B-4, B-9, B-11, B-12, B-13, B-14. -/

theorem test_compare_clears_stale_flags :
    after (step ((start 0 [0xA7, 0, 1] [(0, 4), (1, 4)]).setFlags false true true)) (fun t => (t.e, t.l, t.g)) =
    some (true, false, false) := by decide
theorem test_compare_is_unsigned : after (step ((start 0 [0xA7, 0, 1] [(0, 300), (1, 255)]).setFlags true false false))
    (fun t => (t.e, t.l, t.g, t.pc.toNat)) = some (false, false, true, 3) := by decide
theorem test_jump : after (step (start 20 [0x54, 3] [(3, 12)])) (fun t => t.pc.toNat) = some 12 := by decide
theorem test_jump_if_equal_taken : after (step ((start 14 [0x55, 2] [(2, 17)]).setFlags true false false))
    (fun t => t.pc.toNat) = some 17 := by decide
theorem test_jump_if_equal_not_taken : after (step ((start 14 [0x55, 2] [(2, 17)]).setFlags false true false))
    (fun t => t.pc.toNat) = some 16 := by decide
theorem test_jump_if_not_equal_taken : after (step (start 20 [0x56, 3] [(3, 12)])) (fun t => t.pc.toNat) = some 12 := by
  decide
theorem test_jump_if_not_equal_not_taken : after (step ((start 20 [0x56, 3] [(3, 12)]).setFlags true false false))
    (fun t => t.pc.toNat) = some 22 := by decide

/-! Reset, load, start: R-1, R-2, R-3, R-4, R-6. -/

theorem test_reset_sentinel : State.reset.sp = 244 ∧ State.reset.status = .loading := by decide
theorem test_load_and_start : (match hostLoadImage 0 [0x82, 0, 8] State.reset with
    | .next t => after (hostStart t) (fun u => (u.mem, u.sp, u.status))
    | .fault _ => none
    | .refused _ => none) = some ([(0, 0x82), (2, 8)], 511, .running) := by decide
theorem test_load_at_256_refused : (match hostLoad 256 1 State.reset with | .refused r => some r | _ => none) =
    some .loadNotAdmitted := by decide
theorem test_load_of_300_refused : (match hostLoad 0 300 State.reset with | .refused r => some r | _ => none) =
    some .loadNotAdmitted := by decide
theorem test_second_start_refused : (match hostStart (startRun State.reset) with | .refused r => some r | _ => none) =
    some .startNotAdmitted := by decide
theorem test_write_of_zero_unlists : Memory.write [(3, 7), (5, 9)] 3 0 = [(5, 9)] := by decide
theorem test_write_keeps_order : Memory.write [(3, 7), (5, 9)] 4 1 = [(3, 7), (4, 1), (5, 9)] := by decide

/-- A whole run of one HALT: reset, load, start, one step (70_reset_and_hazards.md R248). -/
theorem test_run_of_halt_image : hostRunImage 1 [1] = .halted ((startRun (State.reset.setMem [(0, 1)])).setStatus .halted) := by
  decide
theorem test_run_of_bad_image_refused : hostRunImage 1 [300] = .refused .loadNotAdmitted := by decide

/-! Witnesses: for each obligation with hypotheses, states and operands that meet them. -/

theorem witness_DecodeOfEncode : (Instr.add 7 0).wf = true ∧ encode (.add 7 0) <+: (⟨0xA0, 7, 0⟩ : Window).bytes := by
  decide
theorem witness_EncodeOfDecode : decode ⟨0x82, 7, 0xFF⟩ = .ok (.loadImmediate 7 0xFF) := by decide
theorem witness_OpcodeByteMatchedWhole : decode ⟨0x01, 0, 0⟩ = .ok .halt ∧
    decode ⟨0x02, 0, 0⟩ = .error (.invalidOpcode 0x02) := by decide
theorem witness_RegisterFieldsChecked : lookupOpcode 0x01 = some .halt ∧ lookupOpcode 0x45 = some .push ∧
    lookupOpcode 0x82 = some .loadImmediate ∧ lookupOpcode 0xA0 = some .add ∧
    decode ⟨0xA0, 7, 8⟩ = .error (.registerOutOfRange 8) ∧ decode ⟨0x82, 8, 0⟩ = .error (.registerOutOfRange 8) := by decide
theorem witness_UnusedWindowBytesIgnored : decode ⟨0x45, 7, 0⟩ = .ok (.push 7) ∧
    (⟨0x45, 7, 0xFF⟩ : Window).bytes.take (Instr.push 7).width = (⟨0x45, 7, 0⟩ : Window).bytes.take (Instr.push 7).width := by
  decide
theorem witness_StepRunsDecodedInstruction : (start 509 [1] []).status = .running ∧
    (start 509 [1] []).pc.toNat + 2 < Config.memSize ∧ decode (windowAt (start 509 [1] [])) = .ok .halt := by decide
theorem witness_FetchPastMemoryFaults : (start 510 [1] []).status = .running ∧
    ¬ ((start 510 [1] []).pc.toNat + 2 < Config.memSize) ∧ ¬ ((start 600 [] []).pc.toNat + 2 < Config.memSize) := by decide
theorem witness_InvalidOpcodeFaults : (start 0 [0xA1] []).status = .running ∧
    (start 0 [0xA1] []).pc.toNat + 2 < Config.memSize ∧
    ∀ row ∈ tableOne, ((start 0 [0xA1] []).mem.read (start 0 [0xA1] []).pc.toNat).toNat ≠ row.1 := by decide
theorem witness_RegisterFieldFaultsAtDecode : (start 0 [0x47, 8] []).status = .running ∧
    (start 0 [0x47, 8] []).pc.toNat + 2 < Config.memSize ∧
    decode (windowAt (start 0 [0x47, 8] [])) = .error (.registerOutOfRange 8) := by decide
theorem witness_NoStepOutsideRunning : State.reset.status ≠ .running ∧ (raise (.stackOverflow 0) State.reset).status ≠ .running ∧
    (State.reset.setStatus .halted).status ≠ .running := by decide
theorem witness_RunningStepAlwaysTaken : (startRun State.reset).status = .running := by decide
theorem witness_FaultsArePrecise : (start 0 [0x45, 0] [(7, 0)]).status = .running ∧
    after (step (start 0 [0x45, 0] [(7, 0)])) State.status = some .faulted := by decide
theorem witness_OnlyHaltHalts : after (step (start 509 [1] [])) State.status = some .halted ∧
    after (step (start 0 [0x54, 0] [])) State.status = some .running := by decide
theorem witness_OnlyPrintRegisterEmits : after (step (start 0 [0x47, 7] [])) State.out ≠ some (start 0 [0x47, 7] []).out ∧
    (after (step (start 0 [0x47, 7] [])) State.out).isSome = true := by decide
/-- A step of each clause: an instruction that does not store, a PUSH with the highest slot 511, a PUSH with none. -/
theorem witness_OnlyPushAndCallStore : (after (step (start 0 [1] [])) State.out).isSome = true ∧
    ((start 0 [1] []).mem.read 0 ≠ 69 ∧ (start 0 [1] []).mem.read 0 ≠ 80) ∧
    (after (step (start 0 [0x45, 0] [(7, 512)])) State.out).isSome = true ∧ pushSlot (start 0 [0x45, 0] [(7, 512)]) = .ok 511 ∧
    (after (step (start 0 [0x45, 0] [(7, 0)])) State.out).isSome = true ∧
    pushSlot (start 0 [0x45, 0] [(7, 0)]) = .error (.stackOverflow 0) := by decide
theorem witness_FlagsPersistBetweenCompares : RunWithoutCompare (start 0 [0x54, 0] [])
    ((start 0 [0x54, 0] []).setPc 0) :=
  .step _ _ _ (by rfl) (by decide) (.refl _)
theorem witness_PcAfterStepBounded : after (step (start 509 [0x82, 0, 0] [])) (fun t => t.pc.toNat) = some 512 ∧
    after (step (start 0 [0x54, 0] [(0, 4294967295)])) (fun t => t.pc.toNat) = some 4294967295 := by decide
theorem witness_RegistersWrittenAsTabled : (after (exec (.pop 7) State.reset) State.sp).isSome = true ∧
    (0 : Reg) ∉ regsWritten (.pop 7) := by decide
theorem witness_UnreadRegistersDoNotMatter : (after (exec (.loadImmediate 0 9) State.reset) State.sp).isSome = true ∧
    (0 : Reg) ∉ regsRead (.loadImmediate 0 9) State.reset ∧ (0 : Reg) ∈ regsWritten (.loadImmediate 0 9) ∧
    (after (exec (.jumpIfEqual 3) State.reset) State.sp).isSome = true ∧
    (3 : Reg) ∉ regsRead (.jumpIfEqual 3) State.reset := by decide
theorem witness_StepKeepsInv : (startRun State.reset).Inv ∧
    (after (step (startRun State.reset)) State.status).isSome = true :=
  ⟨{ memWf := by decide
     memBelow := by decide
     loadingFresh := by intro h; exact absurd h (by decide)
     faultIff := by decide
     faultExact := by intro r h; cases h
     haltedAtHalt := by intro h; exact absurd h (by decide)
     flagsExclusive := by decide
     outFits := by intro v h; cases h }, by decide⟩
theorem witness_HostOperationsKeepInv : HostCommand.load 255 255 ≠ .step ∧ (State.reset.setMem [(0, 1)]).Inv ∧
    (after (hostApply (.load 255 255) (State.reset.setMem [(0, 1)])) State.status).isSome = true ∧
    (after (hostApply .start (State.reset.setMem [(0, 1)])) State.status).isSome = true :=
  ⟨by decide,
   { memWf := by decide
     memBelow := by decide
     loadingFresh := fun _ => ⟨by decide, rfl⟩
     faultIff := by decide
     faultExact := by intro r h; cases h
     haltedAtHalt := by intro h; exact absurd h (by decide)
     flagsExclusive := by decide
     outFits := by intro v h; cases h }, by decide, by decide⟩
/-- Both clauses of LoadImmediateLoads, PrintRegisterEmits and JumpJumps, where the register fields end. -/
theorem witness_LoadImmediateLoads : (7 : Byte) = Reg.field 7 ∧ 8 ≤ (8 : Byte).toNat := by decide
theorem witness_PrintRegisterEmits : (7 : Byte) = Reg.field 7 ∧ 8 ≤ (255 : Byte).toNat := by decide
theorem witness_JumpJumps : (0 : Byte) = Reg.field 0 ∧ 8 ≤ (8 : Byte).toNat := by decide
theorem witness_AddAddsEncodedRegisters :
    (let s := start 0 [] [(0, 4294967294), (1, 1)]; (s.reg 0).toNat + (s.reg 1).toNat < 2 ^ 32) ∧
    (let s := start 0 [] [(0, 4294967295), (1, 1)]; 2 ^ 32 ≤ (s.reg 0).toNat + (s.reg 1).toNat) := by decide
theorem witness_AddReferenceModeDoublesR0 :
    (let s := start 0 [] [(0, 2147483647)]; (s.reg .r0).toNat + (s.reg .r0).toNat < 2 ^ 32) ∧
    (let s := start 0 [] [(0, 2147483648)]; 2 ^ 32 ≤ (s.reg .r0).toNat + (s.reg .r0).toNat) := by decide
theorem witness_MultiplyMultiplies :
    (let s := start 0 [] [(0, 65535), (1, 65537)]; (s.reg 0).toNat * (s.reg 1).toNat < 2 ^ 32) ∧
    (let s := start 0 [] [(0, 65536), (1, 65536)]; 2 ^ 32 ≤ (s.reg 0).toNat * (s.reg 1).toNat) := by decide
theorem witness_AluOperations : (161 : Byte) ≠ 160 ∧ (161 : Byte) ≠ 162 := by decide
/-- PUSH at the lowest and the highest `SP`, of the value 255; PUSH R7 at `SP = 256`. -/
theorem witness_PushPushes :
    (let s := start 0 [] [(7, 1), (0, 255)]; s.sp ≠ 0 ∧ s.sp - 1 < Config.memSize ∧ (s.reg 0).toNat ≤ 255) ∧
    (let s := start 0 [] [(7, 512), (0, 255)]; s.sp ≠ 0 ∧ s.sp - 1 < Config.memSize ∧ (s.reg 0).toNat ≤ 255) ∧
    (let s := start 0 [] [(7, 256)]; s.sp ≠ 0 ∧ s.sp - 1 < Config.memSize ∧ s.sp - 1 ≤ 255) := by decide
theorem witness_PushFaults : (start 0 [] [(7, 0)]).sp = 0 ∧ Config.memSize ≤ (start 0 [] [(7, 513)]).sp - 1 ∧
    (let s := start 0 [] [(0, 256)]; s.sp ≠ 0 ∧ s.sp - 1 < Config.memSize ∧ 255 < (s.reg 0).toNat) ∧
    (let s := start 0 [] [(7, 257)]; s.sp ≠ 0 ∧ s.sp - 1 < Config.memSize ∧ 255 < s.sp - 1) := by decide
theorem witness_PopPops : (start 0 [] []).sp < Config.memSize ∧ (start 0 [] [(7, 0)]).sp < Config.memSize ∧
    (0 : Reg) ≠ .sp ∧ (7 : Reg) = .sp := by decide
theorem witness_PopAndReturnUnderflow : Config.memSize ≤ (start 0 [] [(7, 512)]).sp := by decide
theorem witness_CallCalls :
    (let s := start 253 [] [(7, 512)]; s.sp ≠ 0 ∧ s.sp - 1 < Config.memSize ∧ s.pc.toNat + 2 ≤ 255) ∧
    (let s := start 0 [] [(7, 1)]; s.sp ≠ 0 ∧ s.sp - 1 < Config.memSize ∧ s.pc.toNat + 2 ≤ 255) := by decide
theorem witness_CallFaults : (start 0 [] [(7, 0)]).sp = 0 ∧ Config.memSize ≤ (start 0 [] [(7, 513)]).sp - 1 ∧
    (let s := start 254 [] []; s.sp ≠ 0 ∧ s.sp - 1 < Config.memSize ∧ 255 < s.pc.toNat + 2) := by decide
theorem witness_ReturnReturns : (start 0 [] []).sp < Config.memSize := by decide
theorem witness_PushThenPopRestores :
    (let s := start 0 [] [(7, 1), (0, 255)]; s.sp ≠ 0 ∧ s.sp - 1 < Config.memSize ∧
      (if (0 : Reg) = .sp then s.sp ≤ 256 else (s.reg 0).toNat ≤ 255)) ∧
    (let s := start 0 [] [(7, 256)]; s.sp ≠ 0 ∧ s.sp - 1 < Config.memSize ∧
      (if (7 : Reg) = .sp then s.sp ≤ 256 else (s.reg 7).toNat ≤ 255)) := by decide
/-- The state the CALL left meets the inner hypotheses too. -/
theorem witness_CallThenReturnResumes :
    (let s := start 253 [0x50, 1] []; s.sp ≠ 0 ∧ s.sp - 1 < Config.memSize ∧ s.pc.toNat + 2 ≤ 255 ∧
      after (exec (.call (Reg.field 1)) s) (fun t => (t.sp, t.mem.read t.sp)) = some (510, 255)) := by decide
theorem witness_PushedByteIsFetched :
    (let s := start 0 [] [(7, 510), (0, 1)]; s.status = .running ∧
      after (exec (.push (Reg.field 0)) s) (fun t => (t.status, decide (t.sp + 2 < Config.memSize))) =
        some (.running, true)) := by decide
theorem witness_JumpIfEqualTestsE : ((start 0 [] []).setFlags true false false).e = true ∧ (start 0 [] []).e = false := by
  decide
theorem witness_JumpIfNotEqualTestsE : ((start 0 [] []).setFlags true false false).e = true ∧ (start 0 [] []).e = false := by
  decide
theorem witness_CompareThenBranch : (start 509 [] []).pc.toNat + 2 < Config.memSize ∧
    (start 509 [] []).reg 0 = (start 509 [] []).reg 1 ∧ (start 509 [] []).reg 0 ≠ (start 509 [] []).reg 7 := by decide
theorem witness_IllFormedInstructionFaults : (Instr.add 0 8).wf = false := by decide
theorem witness_MemReadIsChecked : 511 < 512 ∧ 512 ≤ 512 := by decide
theorem witness_MemWriteIsChecked : (511 < 512 ∧ 255 ≤ 255) ∧ 512 ≤ 512 ∧ (0 < 512 ∧ 255 < 256) := by decide
theorem witness_EqualReadsAreEqualMemories : Memory.wf [(0, 1), (511, 255)] = true ∧
    ∀ a, Memory.read [(0, 1), (511, 255)] a = Memory.read [(0, 1), (511, 255)] a := ⟨by decide, fun _ => rfl⟩
theorem witness_LoadWritesWhenAdmitted : State.reset.status = .loading ∧ (startRun State.reset).status ≠ .loading := by
  decide
theorem witness_LoadedImageStandsInMemory : (List.replicate 256 255).length ≤ 256 ∧
    ∀ b ∈ List.replicate 256 255, b ≤ 255 :=
  ⟨Nat.le_of_eq List.length_replicate, fun _ h => Nat.le_of_eq (List.eq_of_mem_replicate h)⟩
theorem witness_StartBeginsTheRun : (State.reset.setMem [(0, 1)]).status = .loading := by decide
theorem witness_StartRefusedOutsideLoading : (startRun State.reset).status ≠ .loading := by decide
theorem witness_PlacedInstructionRunsNext : decodeTableWord 8 0x01 = some .halt ∧
    decodeTableWord 24 0xFF0782 = some (.loadImmediate 7 0xFF) := by decide
/-- A step of each clause: the highest sequential advance, and a fault. -/
theorem witness_PcUpdatedAsTabled : after (step (start 509 [0x82, 0, 0] [])) (fun t => (t.status, t.pc.toNat)) =
      some (.running, 512) ∧
    after (step (start 511 [1] [])) (fun t => (t.status, t.pc.toNat)) = some (.faulted, 511) := by decide
theorem witness_RunEndsHaltedOrFaulted : (start 509 [1] []).status = .running ∧ State.reset.status = .loading ∧
    (start 509 [1] []).status ≠ .loading := by decide
/-- Each of the three ways a run comes out, at the least fuel. -/
theorem witness_RunIsTheStepSequence : (start 509 [1] []).status = .running ∧
    runUnder 0 (start 509 [1] []) = .outOfFuel (start 509 [1] []) ∧
    runUnder 1 (start 509 [1] []) = .halted ((start 509 [1] []).setStatus .halted) ∧
    runUnder 1 (start 510 [1] []) = .faulted (raise (.outOfBoundsAccess .memory 512) (start 510 [1] [])) := by decide
theorem witness_JumpToItselfNeverEnds : (start 509 [0x54, 0] [(0, 509)]).status = .running ∧
    (start 509 [0x54, 0] [(0, 509)]).pc.toNat + 2 < Config.memSize ∧
    decode (windowAt (start 509 [0x54, 0] [(0, 509)])) = .ok (.jump (Reg.field 0)) ∧
    (start 509 [0x54, 0] [(0, 509)]).reg 0 = (start 509 [0x54, 0] [(0, 509)]).pc := by decide

end Sys2Proof.Tests
end

section
/-! Proofs for the family of 10_state.md: the flags persist between COMPAREs (R28). -/

namespace Sys2Proof.Machine

theorem FlagsKept.refl (s : State) : FlagsKept s s := ⟨rfl, rfl, rfl⟩

theorem FlagsKept.trans {s t u : State} (hst : FlagsKept s t) (htu : FlagsKept t u) : FlagsKept s u := by
  obtain ⟨he, hl, hg⟩ := hst
  obtain ⟨he', hl', hg'⟩ := htu
  exact ⟨he'.trans he, hl'.trans hl, hg'.trans hg⟩

/-- The first byte of a window that decodes is the opcode of the instruction it decodes to
(30_encoding.md R76). -/
theorem op_eq_opcode_of_decode {w : Window} {i : Instr} (h : decode w = .ok i) : w.op = i.tag.opcode := by
  rcases decode_cases w with ⟨-, hd⟩ | ⟨t, f, -, -, hd⟩ | ⟨t, hl, -, hd⟩
  · simp [hd] at h
  · simp [hd] at h
  · obtain rfl : assemble t w.opA w.opB = i := by simpa [hd] using h
    rw [assemble_tag]
    exact (lookupOpcode_eq_some w.op t).mp hl

/-- Where the fetch succeeds and the window decodes, the opcode byte at `pc` is the decoded instruction's. -/
theorem opcodeAtPc_of_decode {s : State} {i : Instr} (hf : Fetchable s) (hd : decode (windowAt s) = .ok i) :
    s.opcodeAtPc = some i.tag.opcode := by
  have hpc : s.pc.toNat < Config.memSize := Nat.lt_of_le_of_lt (Nat.le_add_right _ 2) hf
  rw [State.opcodeAtPc, if_pos hpc]
  exact congrArg some (op_eq_opcode_of_decode hd)

/-- A step keeps the flags unless it fetches COMPARE's opcode: a fault writes no flag, and of the instructions that
complete only COMPARE does. -/
theorem step_flags {s t : State} (h : step s = .next t) (hop : s.opcodeAtPc ≠ some Tag.compare.opcode) :
    FlagsKept s t := by
  obtain ⟨-, ⟨c, -, rfl⟩ | ⟨hf, i, hd, hc⟩⟩ := step_next_cases s t h
  · exact (raise_faultedAs c s).flags
  · have htag : i.tag ≠ .compare := fun hi => hop (by rw [opcodeAtPc_of_decode hf hd, hi])
    exact completes_flags i s t hc htag

/-- Settles O17, by induction on the run: each of its steps keeps the flags. -/
theorem flagsPersistBetweenCompares : Obligations.FlagsPersistBetweenCompares := by
  intro s t hrun
  induction hrun with
  | refl s => exact .refl s
  | step s u t hstep hop _ ih => exact (step_flags hstep hop).trans ih

end Sys2Proof.Machine
end

section
/-! Proofs for the family of 20_memory.md: a read of memory is checked (R50). -/

namespace Sys2Proof.Machine

/-- Settles O47: below the size of memory the read succeeds with the cell, from there on it faults. -/
theorem memReadIsChecked : Obligations.MemReadIsChecked := by
  intro s addr
  constructor
  · intro (hin : addr < Config.memSize)
    exact memRead_ok s addr hin
  · intro (hout : Config.memSize ≤ addr)
    exact memRead_error s addr hout

end Sys2Proof.Machine
end

section
/-! Proofs for the family of 30_encoding.md: the opcode byte is matched whole (R75, R76). -/

namespace Sys2Proof.Machine

/-- Every tag has its row in Table 1. -/
theorem row_mem_tableOne (t : Tag) : (t.opcode.toNat, t, t.format.width) ∈ tableOne := by cases t <;> decide

/-- Every row of Table 1 holds its tag's opcode. -/
theorem tableOne_rows : ∀ row ∈ tableOne, row.1 = row.2.1.opcode.toNat := by decide

/-- A byte selects nothing exactly when no row of Table 1 holds it. -/
theorem lookupOpcode_eq_none_iff_tableOne (op : Byte) :
    lookupOpcode op = none ↔ ∀ row ∈ tableOne, op.toNat ≠ row.1 := by
  rw [lookupOpcode_eq_none]
  constructor
  · intro h row hrow heq
    exact h row.2.1 (BitVec.eq_of_toNat_eq (heq.trans (tableOne_rows row hrow)))
  · rintro h t rfl
    exact h _ (row_mem_tableOne t) rfl

/-- The decoder rejects an opcode exactly when the map selects nothing for the window's first byte, the byte it then
names. -/
theorem decode_eq_invalidOpcode (w : Window) (op : Byte) :
    decode w = .error (.invalidOpcode op) ↔ op = w.op ∧ lookupOpcode w.op = none := by
  rcases decode_cases w with ⟨hl, hd⟩ | ⟨t, f, hl, -, hd⟩ | ⟨t, hl, -, hd⟩
  · simp [hl, hd, eq_comm]
  · simp [hl, hd]
  · simp [hl, hd]

/-- Settles O4: an accepted window begins with its tag's opcode, and each tag's opcode and width are a row of Table 1;
a window is rejected for its opcode exactly when the map, which has the bytes of Table 1, selects nothing. -/
theorem opcodeByteMatchedWhole : Obligations.OpcodeByteMatchedWhole := by
  intro w
  constructor
  · intro i hd
    rw [op_eq_opcode_of_decode hd]
    exact row_mem_tableOne i.tag
  · intro op
    rw [decode_eq_invalidOpcode, lookupOpcode_eq_none_iff_tableOne]

end Sys2Proof.Machine
end

section
/-! Proofs for the family of 40_fetch_decode_execute.md: an opcode byte that is none of the 13 faults (R102). -/

namespace Sys2Proof.Machine

/-- Where the fetch succeeds and the window spells no instruction, the step takes the fault of the rejection
(40_fetch_decode_execute.md R102, R104). -/
theorem step_of_decode_error {s : State} {e : DecodeError} (hr : s.status = .running) (hf : Fetchable s)
    (hd : decode (windowAt s) = .error e) : step s = .next (raise (decodeCause e) s) := by
  rw [step_running s hr, runStep, fetchDecode_rejected s e hf hd]

/-- Settles O9: a byte in no row of Table 1 selects nothing, so the decoder rejects the window for its opcode, and the
step takes that fault, which writes only the status and the record. -/
theorem invalidOpcodeFaults : Obligations.InvalidOpcodeFaults := by
  intro s hr hf hrows
  have hd : decode (windowAt s) = .error (.invalidOpcode (s.mem.read s.pc.toNat)) :=
    (decode_eq_invalidOpcode (windowAt s) _).mpr ⟨rfl, (lookupOpcode_eq_none_iff_tableOne _).mpr hrows⟩
  exact ⟨_, step_of_decode_error hr hf hd, raise_faultedAs (.invalidOpcode (s.mem.read s.pc.toNat)) s⟩

end Sys2Proof.Machine
end

section
/-! Proofs for the encoding: the decoder and the encoder are inverse to each other (30_encoding.md R71 to R79). -/

namespace Sys2Proof.Machine

/-- The one family of all encodings (`Laws.EncodeShape`), over every instruction. -/
theorem encodeShape (i : Instr) : Laws.EncodeShape.Statement i := by
  cases i with
  | halt => exact Laws.EncodeShape.halt
  | ret => exact Laws.EncodeShape.ret
  | push ra => exact Laws.EncodeShape.push ra
  | pop ra => exact Laws.EncodeShape.pop ra
  | printRegister ra => exact Laws.EncodeShape.printRegister ra
  | call ra => exact Laws.EncodeShape.call ra
  | jump ra => exact Laws.EncodeShape.jump ra
  | jumpIfEqual ra => exact Laws.EncodeShape.jumpIfEqual ra
  | jumpIfNotEqual ra => exact Laws.EncodeShape.jumpIfNotEqual ra
  | loadImmediate rd imm8 => exact Laws.EncodeShape.loadImmediate rd imm8
  | add ra rb => exact Laws.EncodeShape.add ra rb
  | multiply ra rb => exact Laws.EncodeShape.multiply ra rb
  | compare ra rb => exact Laws.EncodeShape.compare ra rb

/-- An instruction is well-formed exactly when no register field of it is 8 or more. -/
theorem wf_iff_no_bad_field (i : Instr) : i.wf = true ↔ firstBadField i.regFields = none := by
  rcases fields_cases i with ⟨f, hb, hwf⟩ | ⟨hb, hwf, -⟩ <;> simp [hb, hwf]

/-- The decoder accepts exactly the windows whose opcode is some tag's and whose fields, assembled by that tag, are
good; it answers the assembled instruction. -/
theorem decode_eq_ok_iff (w : Window) (i : Instr) :
    decode w = .ok i ↔ w.op = i.tag.opcode ∧ assemble i.tag w.opA w.opB = i ∧ i.wf = true := by
  rw [wf_iff_no_bad_field]
  constructor
  · intro h
    refine ⟨op_eq_opcode_of_decode h, ?_⟩
    rcases decode_cases w with ⟨-, hd⟩ | ⟨t, f, -, -, hd⟩ | ⟨t, -, hb, hd⟩
    · simp [hd] at h
    · simp [hd] at h
    · obtain rfl : assemble t w.opA w.opB = i := by simpa [hd] using h
      exact ⟨by rw [assemble_tag], hb⟩
  · rintro ⟨hop, ha, hb⟩
    simp [decode, hop, ha, hb]

/-- Settles O1: the shape of the encoding puts the tag's opcode and the operand bytes where the decoder assembles them
from, and well-formedness passes its field check. -/
theorem decodeOfEncode : Obligations.DecodeOfEncode := by
  intro i w hwf hbytes
  obtain ⟨hop, ha⟩ := (encodeShape i).2 w hbytes
  exact (decode_eq_ok_iff w i).mpr ⟨hop, ha, hwf⟩

/-- The bytes of an assembled instruction are the opcode and the operand bytes its format takes, in window order. -/
theorem encode_assemble (t : Tag) (a b : Byte) : encode (assemble t a b) <+: [t.opcode, a, b] := by
  cases t <;> simp [assemble, encode]

/-- Settles O2: an accepted window is the opcode of the answered instruction and the bytes it was assembled from. -/
theorem encodeOfDecode : Obligations.EncodeOfDecode := by
  intro w i hd
  obtain ⟨hop, ha, hwf⟩ := (decode_eq_ok_iff w i).mp hd
  refine ⟨hwf, ?_⟩
  have h := encode_assemble i.tag w.opA w.opB
  rwa [ha, ← hop] at h

/-- Settles O6: the first `width` bytes are the instruction's encoding, so both windows begin with it, and what
decoding answers depends on nothing else. -/
theorem unusedWindowBytesIgnored : Obligations.UnusedWindowBytesIgnored := by
  intro w w' i hd hsame
  obtain ⟨hwf, rest, hrest⟩ := encodeOfDecode w i hd
  have hbytes : w.bytes.take i.width = encode i := by rw [← hrest, ← (encodeShape i).1, List.take_left]
  refine decodeOfEncode i w' hwf ⟨w'.bytes.drop i.width, ?_⟩
  rw [← hbytes, ← hsame, List.take_append_drop]

/-- The decoder names a register field exactly when it is the first bad one of the assembled instruction. -/
theorem decode_eq_registerOutOfRange {w : Window} {t : Tag} (hl : lookupOpcode w.op = some t) (f : Byte) :
    decode w = .error (.registerOutOfRange f) ↔ firstBadField (assemble t w.opA w.opB).regFields = some f := by
  cases hb : firstBadField (assemble t w.opA w.opB).regFields <;> simp [decode, hl, hb]

@[simp] theorem firstBadField_nil : firstBadField [] = none := rfl

theorem firstBadField_cons (g : Byte) (gs : List Byte) :
    firstBadField (g :: gs) = if 8 ≤ g.toNat then some g else firstBadField gs := by
  by_cases h : 8 ≤ g.toNat <;> simp [firstBadField, h]

theorem firstBadField_singleton_eq_some (g f : Byte) : firstBadField [g] = some f ↔ 8 ≤ g.toNat ∧ f = g := by
  simp [firstBadField_cons, eq_comm]

theorem firstBadField_pair_eq_some (g g' f : Byte) :
    firstBadField [g, g'] = some f ↔ (8 ≤ g.toNat ∧ f = g) ∨ (g.toNat < 8 ∧ 8 ≤ g'.toNat ∧ f = g') := by
  rw [firstBadField_cons]
  by_cases h : 8 ≤ g.toNat
  · simp [h, Nat.not_lt.mpr h, eq_comm]
  · simp [h, Nat.lt_of_not_le h, firstBadField_singleton_eq_some]

/-- Settles O5: by the tag's format, the assembled instruction has no register field, one, or two. -/
theorem registerFieldsChecked : Obligations.RegisterFieldsChecked := by
  intro w t f hl
  rw [decode_eq_registerOutOfRange hl]
  cases t with
  | halt | ret => simp [assemble, Instr.regFields, Tag.format]
  | push | pop | printRegister | call | jump | jumpIfEqual | jumpIfNotEqual | loadImmediate =>
    exact firstBadField_singleton_eq_some w.opA f
  | add | multiply | compare => exact firstBadField_pair_eq_some w.opA w.opB f

/-- Settles O3: each of the twelve windows is decoded by running the decoder on it. -/
theorem wordsDecodeToTheirInstructions : Obligations.WordsDecodeToTheirInstructions := by
  unfold Obligations.WordsDecodeToTheirInstructions
  decide

end Sys2Proof.Machine
end

section
/-! Proofs for the steps: what a step does in every status, and what it leaves unchanged
(40_fetch_decode_execute.md R100 to R108; 60_exceptions.md R214, R215). -/

namespace Sys2Proof.Machine

/-! Faults. -/

/-- An answer that takes the fault of `c` is a next state in the terms claims use. -/
theorem faultedAs_of_raise {o : Result} {c : Cause} {s : State} (h : o = .next (raise c s)) :
    ∃ t, o = .next t ∧ FaultedAs c.kind c.kind.code c.detail s t :=
  ⟨_, h, raise_faultedAs c s⟩

/-- Settles O46: `exec` takes the fault of the first bad field. -/
theorem illFormedInstructionFaults : Obligations.IllFormedInstructionFaults := by
  intro i s hwf
  rcases fields_cases i with ⟨f, hb, -⟩ | ⟨-, hwf', -⟩
  · exact ⟨f, _, hb, exec_bad_field i s f hb, raise_faultedAs (.outOfBoundsAccess .register f.toNat) s⟩
  · simp [hwf] at hwf'

/-! The step. -/

/-- Settles O7: the fetch and the decoding succeed, and the running step is what remains. -/
theorem stepRunsDecodedInstruction : Obligations.StepRunsDecodedInstruction := by
  intro s i hr hf hd
  rw [step_running s hr, runStep, fetchDecode_ok s i hf hd]

/-- Settles O8: the fetch reports the first address outside memory, and the step takes that fault. -/
theorem fetchPastMemoryFaults : Obligations.FetchPastMemoryFaults := by
  intro s hr hf
  apply faultedAs_of_raise (c := .outOfBoundsAccess .memory (max s.pc.toNat Config.memSize))
  rw [step_running s hr, runStep, fetchDecode_outside s hf]

/-- Settles O10: the step takes the fault the rejection stands for. -/
theorem registerFieldFaultsAtDecode : Obligations.RegisterFieldFaultsAtDecode := by
  intro s f hr hf hd
  exact faultedAs_of_raise (step_of_decode_error hr hf hd)

/-- Settles O11, status by status. -/
theorem noStepOutsideRunning : Obligations.NoStepOutsideRunning := by
  intro s hs
  cases hst : s.status with
  | running => exact absurd hst hs
  | loading | halted | faulted => simp [step, hst]

/-- A running core answers a next state: `exec` completes or takes a fault, and so does everything before it. -/
theorem step_total {s : State} (hr : s.status = .running) : ∃ t, step s = .next t := by
  rw [step_running s hr]
  rcases runStep_cases s with ⟨-, h⟩ | ⟨-, e, -, h⟩ | ⟨-, i, -, h⟩
  · exact ⟨_, h⟩
  · exact ⟨_, h⟩
  · rcases exec_cases i s with ⟨t, -, hx⟩ | ⟨c, -, hx⟩
    · exact ⟨t, h.trans hx⟩
    · exact ⟨_, h.trans hx⟩

/-- The status a step leaves: RUNNING, HALTED with nothing else changed, at a HALT inside memory, or FAULTED. -/
theorem step_status {s t : State} (h : step s = .next t) :
    t.status = .running ∨
    (t = s.setStatus .halted ∧ Fetchable s ∧ s.mem.read s.pc.toNat = Tag.halt.opcode) ∨
    (∃ c : Cause, c.kind ≠ .unsupportedOperation ∧ t = raise c s) := by
  obtain ⟨hr, hc | ⟨hf, i, hd, hc⟩⟩ := step_next_cases s t h
  · exact .inr (.inr hc)
  · obtain ⟨-, ⟨-, hst⟩ | ⟨rfl, ht⟩⟩ := completes_run i s t hc
    · exact .inl (hst.trans hr)
    · exact .inr (.inl ⟨ht, hf, op_eq_opcode_of_decode hd⟩)

/-- Settles O12: a next state exists, and none of the statuses a step leaves is LOADING. -/
theorem runningStepAlwaysTaken : Obligations.RunningStepAlwaysTaken := by
  intro s hr
  obtain ⟨t, h⟩ := step_total hr
  refine ⟨t, h, ?_⟩
  rcases step_status h with hst | ⟨rfl, -⟩ | ⟨c, -, rfl⟩
  · simp [hst]
  · simp
  · simp

/-- Settles O13: a step that ends FAULTED took a fault, and the causes that can be raised have the listed kinds. -/
theorem faultsArePrecise : Obligations.FaultsArePrecise := by
  intro s t _ h hfaulted
  rcases step_status h with hst | ⟨rfl, -⟩ | ⟨c, hk, rfl⟩
  · simp [hst] at hfaulted
  · simp at hfaulted
  · refine ⟨c.kind, c.kind.code, c.detail, raise_faultedAs c s, ?_⟩
    cases hc : c.kind with
    | unsupportedOperation => exact absurd hc hk
    | invalidOpcode | outOfBoundsAccess | stackUnderflow | stackOverflow | valueOutOfRange | arithmeticOverflow =>
      simp [FaultKind.code]

/-- Where the byte at `pc` is HALT's opcode, the window decodes to HALT, whatever follows. -/
theorem decode_windowAt_halt {s : State} (h : s.mem.read s.pc.toNat = Tag.halt.opcode) :
    decode (windowAt s) = .ok .halt :=
  (decode_eq_ok_iff (windowAt s) .halt).mpr ⟨h, rfl, rfl⟩

/-- Settles O14: a step that ends HALTED executed a HALT it fetched, and one that fetches HALT's opcode executes it. -/
theorem onlyHaltHalts : Obligations.OnlyHaltHalts := by
  intro s t hr h
  constructor
  · intro hhalted
    rcases step_status h with hst | ⟨-, hf, hop⟩ | ⟨c, -, rfl⟩
    · simp [hst] at hhalted
    · exact ⟨hf, hop⟩
    · simp at hhalted
  · rintro ⟨hf, hop⟩
    rw [stepRunsDecodedInstruction s .halt hr hf (decode_windowAt_halt hop)] at h
    obtain rfl : s.setStatus .halted = t := Host.Outcome.next.inj h
    rfl

/-- The operand byte of a decoded PRINT_REGISTER is the byte after its opcode. -/
theorem opA_of_decode_printRegister {w : Window} {ra : Byte} (h : decode w = .ok (.printRegister ra)) : w.opA = ra := by
  obtain ⟨-, ha, -⟩ := (decode_eq_ok_iff w _).mp h
  exact Instr.printRegister.inj ha

/-- Settles O15: a fault keeps the output, and of the instructions that complete only PRINT_REGISTER does not. -/
theorem onlyPrintRegisterEmits : Obligations.OnlyPrintRegisterEmits := by
  intro s t h hout
  obtain ⟨-, ⟨c, -, rfl⟩ | ⟨-, i, hd, hc⟩⟩ := step_next_cases s t h
  · exact absurd (raise_out s c) hout
  · obtain hkept | ⟨a, rfl, ht⟩ := completes_out i s t hc
    · exact absurd hkept hout
    · exact ⟨op_eq_opcode_of_decode hd, a, opA_of_decode_printRegister hd, ht⟩

/-- Memory after a step: as before, or one byte written at `SP - 1`, where `pushSlot` allows it, by a PUSH or CALL. -/
theorem step_mem {s t : State} (h : step s = .next t) :
    t.mem = s.mem ∨
    ((s.mem.read s.pc.toNat = Tag.push.opcode ∨ s.mem.read s.pc.toNat = Tag.call.opcode) ∧
      pushSlot s = .ok (s.sp - 1) ∧ ∃ v, t.mem = s.mem.write (s.sp - 1) v) := by
  obtain ⟨-, ⟨c, -, rfl⟩ | ⟨-, i, hd, hc⟩⟩ := step_next_cases s t h
  · exact .inl rfl
  · obtain ⟨-, -, hm⟩ | ⟨htag, h0, h1, hw⟩ := completes_mem i s t hc
    · exact .inl hm
    · have hop : s.mem.read s.pc.toNat = i.tag.opcode := op_eq_opcode_of_decode hd
      exact .inr ⟨htag.imp (hop.trans <| congrArg _ ·) (hop.trans <| congrArg _ ·), pushSlot_ok s h0 h1, hw⟩

theorem memKept_of_mem_eq {s t : State} (h : t.mem = s.mem) : MemKept s t := fun a => by rw [h]

/-- Settles O16: a step that changed memory at all was a PUSH or CALL and wrote at the address `pushSlot` gave. -/
theorem onlyPushAndCallStore : Obligations.OnlyPushAndCallStore := by
  intro s t h
  have hslot (slot : Nat) (hp : pushSlot s = .ok slot) : slot = s.sp - 1 := by
    rcases pushSlot_cases s with ⟨-, -, hp'⟩ | ⟨-, hp'⟩ | ⟨-, hp'⟩ <;> simp [hp] at hp'
    exact hp'
  rcases step_mem h with hm | ⟨hop, hp, v, hm⟩
  · have hkept := memKept_of_mem_eq hm
    exact ⟨fun _ _ => hkept, fun slot hs => ⟨hslot slot hs, fun a _ => hkept a⟩, fun _ => hkept⟩
  · refine ⟨fun h69 h80 => (hop.elim h69 h80).elim, fun slot hs => ⟨hslot slot hs, fun a ha => ?_⟩, ?_⟩
    · rw [hm, Memory.read_write_ne _ _ _ _ (hslot slot hs ▸ ha)]
    · rintro ⟨c, hc⟩
      simp [hp] at hc

/-! The invariant. -/

/-- Settles O21, field by field: memory lists nothing, and nothing has run. -/
theorem invAtReset : Obligations.InvAtReset where
  memWf := rfl
  memBelow := rfl
  loadingFresh := fun _ => ⟨rfl, rfl⟩
  faultIff := by simp [State.reset]
  faultExact := by simp [State.reset]
  haltedAtHalt := by simp [State.reset]
  flagsExclusive := by simp [State.reset]
  outFits := by simp [State.reset]

/-- Outside FAULTED there is no fault record. -/
theorem State.Inv.fault_eq_none {s : State} (hs : s.Inv) (hst : s.status ≠ .faulted) : s.fault = none := by
  simpa using mt hs.faultIff.mp hst

/-- A fault keeps the invariant: its record names the state it was taken in. -/
theorem inv_raise {s : State} {c : Cause} (hs : s.Inv) (hk : c.kind ≠ .unsupportedOperation) : (raise c s).Inv where
  memWf := hs.memWf
  memBelow := hs.memBelow
  loadingFresh := by simp
  faultIff := by simp
  faultExact := by
    intro r hr
    obtain rfl : faultRecord c s = r := by simpa using hr
    exact ⟨rfl, rfl, rfl, hk⟩
  haltedAtHalt := by simp
  flagsExclusive := hs.flagsExclusive
  outFits := hs.outFits

/-- The flags COMPARE writes exclude each other (43_compare_branch.md R180). -/
theorem compareFlags_exclusive (s : State) (a b : Nat) :
    let t := s.compareFlags a b
    ¬(t.e = true ∧ t.l = true) ∧ ¬(t.e = true ∧ t.g = true) ∧ ¬(t.l = true ∧ t.g = true) := by
  simp only [State.compareFlags, setFlags_e, setFlags_l, setFlags_g, decide_eq_true_eq]
  omega

/-- Completing keeps at most one flag set: only COMPARE writes the flags. -/
theorem completes_flagsExclusive {i : Instr} {s t : State} (h : Completes i s t)
    (hs : ¬(s.e = true ∧ s.l = true) ∧ ¬(s.e = true ∧ s.g = true) ∧ ¬(s.l = true ∧ s.g = true)) :
    ¬(t.e = true ∧ t.l = true) ∧ ¬(t.e = true ∧ t.g = true) ∧ ¬(t.l = true ∧ t.g = true) := by
  by_cases hi : i.tag = .compare
  · cases i with
    | compare ra rb =>
      obtain ⟨a, b, -, -, rfl⟩ := h
      exact compareFlags_exclusive s _ _
    | _ => cases hi
  · obtain ⟨he, hl, hg⟩ := completes_flags i s t h hi
    rwa [he, hl, hg]

/-- Completing in RUNNING keeps the invariant, if a HALT stands at a HALT opcode inside memory. -/
theorem inv_completes {i : Instr} {s t : State} (hs : s.Inv) (hr : s.status = .running) (h : Completes i s t)
    (hhalt : i = .halt → Fetchable s ∧ s.mem.read s.pc.toNat = Tag.halt.opcode) : t.Inv := by
  obtain ⟨hfault, hstatus⟩ := completes_run i s t h
  have hnone : t.fault = none := hfault.trans (hs.fault_eq_none (by simp [hr]))
  have hst : t.status = .running ∨ (i = .halt ∧ t = s.setStatus .halted) :=
    hstatus.imp (fun ⟨_, hst⟩ => hst.trans hr) id
  have hmem : t.mem.wf = true ∧ t.mem.below Config.memSize = true := by
    rcases completes_mem i s t h with ⟨-, -, hm⟩ | ⟨-, -, h1, v, hm⟩
    · exact hm ▸ ⟨hs.memWf, hs.memBelow⟩
    · exact hm ▸ ⟨Memory.wf_write _ _ _ hs.memWf, Memory.below_write _ _ _ _ hs.memBelow h1⟩
  refine
    { memWf := hmem.1
      memBelow := hmem.2
      loadingFresh := ?_
      faultIff := ?_
      faultExact := by simp [hnone]
      haltedAtHalt := ?_
      flagsExclusive := completes_flagsExclusive h hs.flagsExclusive
      outFits := ?_ }
  · intro hl
    rcases hst with hst | ⟨-, rfl⟩
    · simp [hst] at hl
    · simp at hl
  · rw [hnone]
    rcases hst with hst | ⟨-, rfl⟩
    · simp [hst]
    · simp
  · intro hh
    rcases hst with hst | ⟨hi, rfl⟩
    · simp [hst] at hh
    · exact hhalt hi
  · intro v hv
    rcases completes_out i s t h with ho | ⟨a, -, ho⟩
    · exact hs.outFits v (ho ▸ hv)
    · rw [ho, List.mem_append, List.mem_singleton] at hv
      rcases hv with hv | rfl
      · exact hs.outFits v hv
      · exact (s.reg a).isLt

/-- Settles O22: a step takes a fault, or an instruction it fetched completes, and both keep the invariant. -/
theorem stepKeepsInv : Obligations.StepKeepsInv := by
  intro s t hs h
  obtain ⟨hr, ⟨c, hk, rfl⟩ | ⟨hf, i, hd, hc⟩⟩ := step_next_cases s t h
  · exact inv_raise hs hk
  · refine inv_completes hs hr hc fun hi => ⟨hf, ?_⟩
    subst hi
    exact op_eq_opcode_of_decode hd

theorem setMem_setMem (s : State) (m m' : Memory) : (s.setMem m).setMem m' = s.setMem m' := rfl

/-- An admitted load keeps the invariant: only the image, in the base capacity, differs from reset. -/
theorem inv_hostLoad {addr byte : Nat} {s t : State} (hs : s.Inv) (h : hostLoad addr byte s = .next t) : t.Inv := by
  unfold hostLoad at h
  split at h
  case isFalse => cases h
  case isTrue hadm =>
    obtain ⟨hl, haddr, -⟩ := hadm
    obtain rfl := Host.Outcome.next.inj h
    obtain ⟨hbelow, hreset⟩ := hs.loadingFresh hl
    have hbelow' := Memory.below_write s.mem addr (BitVec.ofNat Config.cellBits byte) _ hbelow haddr
    exact
      { hs with
        memWf := Memory.wf_write _ _ _ hs.memWf
        memBelow := Memory.below_mono _ _ _ (by decide) hbelow'
        loadingFresh := fun _ => ⟨hbelow', (congrArg (State.setMem · _) hreset).trans (setMem_setMem _ _ _)⟩
        faultExact := by simp [hs.fault_eq_none, hl]
        haltedAtHalt := by simp [hl] }

/-- A start keeps the invariant: it leaves LOADING with no fault, no flag and no output. -/
theorem inv_startRun {s : State} (hs : s.Inv) (hl : s.status = .loading) : (startRun s).Inv := by
  have hnone : s.fault = none := hs.fault_eq_none (by simp [hl])
  exact
    { memWf := Memory.wf_clear _ _ _ hs.memWf
      memBelow := Memory.below_clear _ _ _ _ hs.memBelow
      loadingFresh := by simp [startRun]
      faultIff := by simp [startRun, hnone]
      faultExact := by simp [startRun, hnone]
      haltedAtHalt := by simp [startRun]
      flagsExclusive := hs.flagsExclusive
      outFits := hs.outFits }

/-- What an admitted start answers. -/
theorem hostStart_eq_next {s t : State} (h : hostStart s = .next t) : s.status = .loading ∧ t = startRun s := by
  unfold hostStart at h
  split at h
  case isFalse => cases h
  case isTrue hl => exact ⟨hl, (Host.Outcome.next.inj h).symm⟩

/-- Settles O23, operation by operation. -/
theorem hostOperationsKeepInv : Obligations.HostOperationsKeepInv := by
  intro c s t hc hs h
  cases c with
  | reset =>
    obtain rfl : State.reset = t := Host.Outcome.next.inj h
    exact invAtReset
  | load addr byte => exact inv_hostLoad hs h
  | start =>
    obtain ⟨hl, rfl⟩ := hostStart_eq_next h
    exact inv_startRun hs hl
  | step => exact absurd rfl hc

end Sys2Proof.Machine
end

section
/-! Proofs for all instructions at once: where an instruction faults, which registers it reads and writes (the register
access table, 10_state.md R23), and where it leaves `pc` (the `pc` table, 40_fetch_decode_execute.md R106). -/

namespace Sys2Proof.Machine

/-! Where a well-formed instruction faults: the counterpart of `Completes`. -/

/-- A store of `v` at `SP - 1` raises `c`, by the order of its checks (42_stack.md R150, R152). -/
def StackStoreRaises (s : State) (v : Nat) (c : Cause) : Prop :=
  (s.sp = 0 ∧ c = .stackOverflow 0) ∨
  (Config.memSize ≤ s.sp - 1 ∧ c = .outOfBoundsAccess .memory (s.sp - 1)) ∨
  (s.sp ≠ 0 ∧ s.sp - 1 < Config.memSize ∧ 2 ^ Config.cellBits ≤ v ∧ c = .valueOutOfRange v)

/-- The instruction, its register fields good, raises `c` in `s`. -/
def Raises (i : Instr) (s : State) (c : Cause) : Prop :=
  match i with
  | .ret => Config.memSize ≤ s.sp ∧ c = .stackUnderflow s.sp
  | .push ra => ∃ a : Reg, ra = a.field ∧ StackStoreRaises s ((s.setSp (s.sp - 1)).reg a).toNat c
  | .pop ra => ∃ a : Reg, ra = a.field ∧ Config.memSize ≤ s.sp ∧ c = .stackUnderflow s.sp
  | .call ra => ∃ a : Reg, ra = a.field ∧ StackStoreRaises s (s.pc.toNat + 2) c
  | .add ra rb => ∃ a b : Reg, ra = a.field ∧ rb = b.field ∧
      2 ^ Config.regBits ≤ (s.reg a).toNat + (s.reg b).toNat ∧
      c = .arithmeticOverflow ((s.reg a).toNat + (s.reg b).toNat)
  | .multiply ra rb => ∃ a b : Reg, ra = a.field ∧ rb = b.field ∧
      2 ^ Config.regBits ≤ (s.reg a).toNat * (s.reg b).toNat ∧
      c = .arithmeticOverflow ((s.reg a).toNat * (s.reg b).toNat)
  | .halt | .printRegister _ | .jump _ | .jumpIfEqual _ | .jumpIfNotEqual _ | .loadImmediate _ _ | .compare _ _ => False

/-- Where an instruction's checks fail, `exec` takes the fault of the first that does. -/
theorem exec_of_raises {i : Instr} {s : State} {c : Cause} (h : Raises i s c) : exec i s = .next (raise c s) := by
  cases i with
  | halt | printRegister | jump | jumpIfEqual | jumpIfNotEqual | loadImmediate | compare => exact h.elim
  | ret =>
    obtain ⟨hs, rfl⟩ := h
    simp [exec, execReturn, popByte_underflow s hs]
  | push ra =>
    obtain ⟨a, rfl, ⟨h0, rfl⟩ | ⟨h1, rfl⟩ | ⟨h0, h1, hv, rfl⟩⟩ := h
    · simp [exec, execPush, pushSlot_overflow s h0]
    · simp [exec, execPush, pushSlot_outside s h1]
    · simp [exec, execPush, pushSlot_ok s h0 h1, memWrite_value _ _ _ h1 hv]
  | pop ra =>
    obtain ⟨a, rfl, hs, rfl⟩ := h
    simp [exec, execPop, popByte_underflow s hs]
  | call ra =>
    obtain ⟨a, rfl, ⟨h0, rfl⟩ | ⟨h1, rfl⟩ | ⟨h0, h1, hv, rfl⟩⟩ := h
    · simp [exec, execCall, pushSlot_overflow s h0]
    · simp [exec, execCall, pushSlot_outside s h1]
    · simp [exec, execCall, pushSlot_ok s h0 h1, memWrite_value _ _ _ h1 hv]
  | add ra rb =>
    obtain ⟨a, b, rfl, rfl, hv, rfl⟩ := h
    simp [exec, execAdd, addIn, aluRegisters_add, writeResult_overflow _ _ _ hv]
  | multiply ra rb =>
    obtain ⟨a, b, rfl, rfl, hv, rfl⟩ := h
    simp [exec, execMultiply, aluRegisters_multiply, writeResult_overflow _ _ _ hv]

/-- A store at `SP - 1` passes its checks or raises. -/
theorem stackStore_cases (s : State) (v : Nat) :
    (s.sp ≠ 0 ∧ s.sp - 1 < Config.memSize ∧ v < 2 ^ Config.cellBits) ∨ ∃ c, StackStoreRaises s v c := by
  by_cases h0 : s.sp = 0
  · exact .inr ⟨_, .inl ⟨h0, rfl⟩⟩
  by_cases h1 : s.sp - 1 < Config.memSize
  · by_cases hv : v < 2 ^ Config.cellBits
    · exact .inl ⟨h0, h1, hv⟩
    · exact .inr ⟨_, .inr (.inr ⟨h0, h1, Nat.le_of_not_lt hv, rfl⟩)⟩
  · exact .inr ⟨_, .inr (.inl ⟨Nat.le_of_not_lt h1, rfl⟩)⟩

/-- A well-formed instruction completes or raises. -/
theorem completes_or_raises {i : Instr} (s : State) (hwf : i.wf = true) :
    (∃ t, Completes i s t) ∨ ∃ c, Raises i s c := by
  rcases fields_cases i with ⟨f, -, hbad⟩ | ⟨-, -, hfields⟩
  · simp [hwf] at hbad
  cases i with
  | halt => exact .inl ⟨_, rfl⟩
  | ret =>
    by_cases hs : s.sp < Config.memSize
    · exact .inl ⟨_, hs, rfl⟩
    · exact .inr ⟨_, Nat.le_of_not_lt hs, rfl⟩
  | printRegister ra | jump ra | jumpIfEqual ra | jumpIfNotEqual ra =>
    obtain ⟨a, rfl⟩ := hfields ra (by simp [Instr.regFields])
    exact .inl ⟨_, a, rfl, rfl⟩
  | loadImmediate rd imm8 =>
    obtain ⟨d, rfl⟩ := hfields rd (by simp [Instr.regFields])
    exact .inl ⟨_, d, rfl, rfl⟩
  | push ra =>
    obtain ⟨a, rfl⟩ := hfields ra (by simp [Instr.regFields])
    rcases stackStore_cases s ((s.setSp (s.sp - 1)).reg a).toNat with ⟨h0, h1, hv⟩ | ⟨c, hc⟩
    · exact .inl ⟨_, a, rfl, h0, h1, hv, rfl⟩
    · exact .inr ⟨c, a, rfl, hc⟩
  | call ra =>
    obtain ⟨a, rfl⟩ := hfields ra (by simp [Instr.regFields])
    rcases stackStore_cases s (s.pc.toNat + 2) with ⟨h0, h1, hv⟩ | ⟨c, hc⟩
    · exact .inl ⟨_, a, rfl, h0, h1, hv, rfl⟩
    · exact .inr ⟨c, a, rfl, hc⟩
  | pop ra =>
    obtain ⟨a, rfl⟩ := hfields ra (by simp [Instr.regFields])
    by_cases hs : s.sp < Config.memSize
    · exact .inl ⟨_, a, rfl, hs, rfl⟩
    · exact .inr ⟨_, a, rfl, Nat.le_of_not_lt hs, rfl⟩
  | add ra rb =>
    obtain ⟨a, rfl⟩ := hfields ra (by simp [Instr.regFields])
    obtain ⟨b, rfl⟩ := hfields rb (by simp [Instr.regFields])
    by_cases hv : (s.reg a).toNat + (s.reg b).toNat < 2 ^ Config.regBits
    · exact .inl ⟨_, a, b, rfl, rfl, hv, rfl⟩
    · exact .inr ⟨_, a, b, rfl, rfl, Nat.le_of_not_lt hv, rfl⟩
  | multiply ra rb =>
    obtain ⟨a, rfl⟩ := hfields ra (by simp [Instr.regFields])
    obtain ⟨b, rfl⟩ := hfields rb (by simp [Instr.regFields])
    by_cases hv : (s.reg a).toNat * (s.reg b).toNat < 2 ^ Config.regBits
    · exact .inl ⟨_, a, b, rfl, rfl, hv, rfl⟩
    · exact .inr ⟨_, a, b, rfl, rfl, Nat.le_of_not_lt hv, rfl⟩
  | compare ra rb =>
    obtain ⟨a, rfl⟩ := hfields ra (by simp [Instr.regFields])
    obtain ⟨b, rfl⟩ := hfields rb (by simp [Instr.regFields])
    exact .inl ⟨_, a, b, rfl, rfl, rfl⟩

/-! The registers an instruction writes. -/

@[simp] theorem fieldReg_field (r : Reg) : fieldReg r.field = [r] := by simp [fieldReg]

theorem regsKept_setReg (s : State) (r : Reg) (v : Word) : RegsKeptExcept [r] s (s.setReg r v) := by
  intro r' hr'
  exact setReg_reg_ne s r r' v (by simpa using hr')

theorem regsKept_setSp (s : State) (n : Nat) : RegsKeptExcept [.sp] s (s.setSp n) := regsKept_setReg s .sp _

/-- Completing writes only the registers of the table. -/
theorem completes_regs {i : Instr} {s t : State} (h : Completes i s t) : RegsKeptExcept (regsWritten i) s t := by
  cases i with
  | halt =>
    obtain rfl : t = s.setStatus .halted := h
    exact fun _ _ => rfl
  | ret =>
    obtain ⟨-, rfl⟩ := h
    exact regsKept_setSp s _
  | push ra | call ra =>
    obtain ⟨a, -, -, -, -, rfl⟩ := h
    exact regsKept_setSp s _
  | pop ra =>
    obtain ⟨a, rfl, -, rfl⟩ := h
    intro r hr
    have hr' : r ≠ a ∧ r ≠ .sp := by simpa [regsWritten] using hr
    simp [setSp_reg, setReg_reg, hr']
  | printRegister ra | jump ra =>
    obtain ⟨a, -, rfl⟩ := h
    exact fun _ _ => rfl
  | jumpIfEqual ra | jumpIfNotEqual ra =>
    obtain ⟨a, -, rfl⟩ := h
    split <;> exact fun _ _ => rfl
  | loadImmediate rd imm8 =>
    obtain ⟨d, rfl, rfl⟩ := h
    rw [regsWritten, fieldReg_field]
    exact regsKept_setReg s d _
  | add ra rb =>
    obtain ⟨a, b, rfl, -, -, rfl⟩ := h
    rw [regsWritten, addRegs, fieldReg_field]
    exact regsKept_setReg s a _
  | multiply ra rb =>
    obtain ⟨a, b, rfl, -, -, rfl⟩ := h
    rw [regsWritten, fieldReg_field]
    exact regsKept_setReg s a _
  | compare ra rb =>
    obtain ⟨a, b, -, -, rfl⟩ := h
    exact fun _ _ => rfl

/-- Settles O19: completing writes only the registers of the table, and a fault writes none. -/
theorem registersWrittenAsTabled : Obligations.RegistersWrittenAsTabled := by
  intro i s t h
  rcases exec_cases i s with ⟨t', hc, hx⟩ | ⟨c, -, hx⟩
  · obtain rfl := Host.Outcome.next.inj (hx.symm.trans h)
    exact completes_regs hc
  · obtain rfl := Host.Outcome.next.inj (hx.symm.trans h)
    exact fun _ _ => rfl

/-! The registers an instruction reads. -/

theorem setReg_setSp_comm (s : State) {r : Reg} (v : Word) (n : Nat) (h : r ≠ .sp) :
    (s.setReg r v).setSp n = (s.setSp n).setReg r v := setReg_comm s r .sp v _ h

/-- The checks of a store on the stack read no register but `SP`. -/
theorem stackStoreRaises_setReg {s : State} {n : Nat} {c : Cause} {r : Reg} (v : Word) (hr : r ≠ .sp)
    (h : StackStoreRaises s n c) : StackStoreRaises (s.setReg r v) n c := by
  unfold StackStoreRaises at h ⊢
  rwa [setReg_sp_ne s r v hr]

/-- What an instruction raises does not depend on a register it does not read. -/
theorem raises_setReg {i : Instr} {s : State} {c : Cause} {r : Reg} (v : Word) (h : Raises i s c)
    (hr : r ∉ regsRead i s) : Raises i (s.setReg r v) c := by
  cases i with
  | halt | printRegister | jump | jumpIfEqual | jumpIfNotEqual | loadImmediate | compare => exact h.elim
  | ret =>
    have hsp : r ≠ .sp := by simpa [regsRead] using hr
    simpa [Raises, setReg_sp_ne s r v hsp] using h
  | pop ra =>
    have hsp : r ≠ .sp := by simpa [regsRead] using hr
    simpa [Raises, setReg_sp_ne s r v hsp] using h
  | push ra =>
    obtain ⟨a, rfl, hc⟩ := h
    obtain ⟨hra, hsp⟩ : r ≠ a ∧ r ≠ .sp := by simpa [regsRead] using hr
    refine ⟨a, rfl, ?_⟩
    rw [setReg_sp_ne s r v hsp, setReg_setSp_comm s v _ hsp, setReg_reg_ne _ _ _ _ (Ne.symm hra)]
    exact stackStoreRaises_setReg v hsp hc
  | call ra =>
    obtain ⟨a, rfl, hc⟩ := h
    have hsp : r ≠ .sp := by rintro rfl; simp [regsRead] at hr
    exact ⟨a, rfl, stackStoreRaises_setReg v hsp hc⟩
  | add ra rb =>
    obtain ⟨a, b, rfl, rfl, hc⟩ := h
    obtain ⟨hra, hrb⟩ : r ≠ a ∧ r ≠ b := by simpa [regsRead, addRegs] using hr
    exact ⟨a, b, rfl, rfl, by simpa [setReg_reg, Ne.symm hra, Ne.symm hrb] using hc⟩
  | multiply ra rb =>
    obtain ⟨a, b, rfl, rfl, hc⟩ := h
    obtain ⟨hra, hrb⟩ : r ≠ a ∧ r ≠ b := by simpa [regsRead] using hr
    exact ⟨a, b, rfl, rfl, by simpa [setReg_reg, Ne.symm hra, Ne.symm hrb] using hc⟩

/-- `t'` is `t` but for the register `r` that holds `v`, or `t` itself where `r` is written. -/
def SameButFor (written : List Reg) (r : Reg) (v : Word) (t t' : State) : Prop :=
  t' = t.setReg r v ∨ (r ∈ written ∧ t' = t)

/-- A write of the register `d`, with another register or `d` itself changed before. -/
theorem sameButFor_setReg (s : State) (d r : Reg) (x v : Word) :
    SameButFor [d] r v (s.setReg d x) ((s.setReg r v).setReg d x) := by
  by_cases h : r = d
  · subst h
    exact .inr ⟨by simp, setReg_setReg s r v x⟩
  · exact .inl (setReg_comm s r d v x h)

theorem SameButFor.advance {written : List Reg} {r : Reg} {v : Word} {t t' : State}
    (h : SameButFor written r v t t') (n : Nat) : SameButFor written r v (t.advance n) (t'.advance n) := by
  rcases h with rfl | ⟨hr, rfl⟩
  · exact .inl rfl
  · exact .inr ⟨hr, rfl⟩

/-- What an instruction leaves does not depend on a register it does not read, but for that register itself. -/
theorem completes_setReg {i : Instr} {s t : State} {r : Reg} (v : Word) (h : Completes i s t)
    (hr : r ∉ regsRead i s) : ∃ t', Completes i (s.setReg r v) t' ∧ SameButFor (regsWritten i) r v t t' := by
  cases i with
  | halt =>
    obtain rfl : t = s.setStatus .halted := h
    exact ⟨_, rfl, .inl rfl⟩
  | ret =>
    obtain ⟨hs, rfl⟩ := h
    have hsp : r ≠ .sp := by simpa [regsRead] using hr
    have hs' := setReg_sp_ne s r v hsp
    refine ⟨_, ⟨hs'.symm ▸ hs, rfl⟩, .inl ?_⟩
    rw [hs', setReg_setSp_comm s v _ hsp]
    rfl
  | push ra =>
    obtain ⟨a, rfl, h0, h1, hv, rfl⟩ := h
    obtain ⟨hra, hsp⟩ : r ≠ a ∧ r ≠ .sp := by simpa [regsRead] using hr
    have hs' := setReg_sp_ne s r v hsp
    have ha : (((s.setReg r v).setSp (s.sp - 1)).reg a) = (s.setSp (s.sp - 1)).reg a := by
      rw [setReg_setSp_comm s v _ hsp, setReg_reg_ne _ _ _ _ (Ne.symm hra)]
    refine ⟨_, ⟨a, rfl, hs'.symm ▸ h0, hs'.symm ▸ h1, by rwa [hs', ha], rfl⟩, .inl ?_⟩
    rw [hs', ha, setReg_setSp_comm s v _ hsp]
    rfl
  | call ra =>
    obtain ⟨a, rfl, h0, h1, hv, rfl⟩ := h
    obtain ⟨hra, hsp⟩ : r ≠ a ∧ r ≠ .sp := by simpa [regsRead] using hr
    have hs' := setReg_sp_ne s r v hsp
    refine ⟨_, ⟨a, rfl, hs'.symm ▸ h0, hs'.symm ▸ h1, hv, rfl⟩, .inl ?_⟩
    rw [hs', setReg_setSp_comm s v _ hsp, setReg_reg_ne _ _ _ _ (Ne.symm hra)]
    rfl
  | pop ra =>
    obtain ⟨a, rfl, hs, rfl⟩ := h
    have hsp : r ≠ .sp := by simpa [regsRead] using hr
    have hs' := setReg_sp_ne s r v hsp
    refine ⟨_, ⟨a, rfl, hs'.symm ▸ hs, rfl⟩, ?_⟩
    rw [hs', setReg_mem]
    rcases sameButFor_setReg s a r (zext (s.mem.read s.sp)) v with h | ⟨hmem, h⟩
    · rw [h, setReg_sp_ne _ _ _ hsp, setReg_setSp_comm _ v _ hsp]
      exact .inl rfl
    · rw [h]
      exact .inr ⟨by simpa [regsWritten] using .inl (List.mem_singleton.mp hmem), rfl⟩
  | printRegister ra | jump ra =>
    obtain ⟨a, rfl, rfl⟩ := h
    have hra : r ≠ a := by simpa [regsRead] using hr
    refine ⟨_, ⟨a, rfl, rfl⟩, .inl ?_⟩
    rw [setReg_reg_ne _ _ _ _ (Ne.symm hra)]
    rfl
  | jumpIfEqual ra =>
    obtain ⟨a, rfl, rfl⟩ := h
    refine ⟨_, ⟨a, rfl, rfl⟩, .inl ?_⟩
    rw [setReg_e]
    split
    next he =>
      have hra : r ≠ a := by simpa [regsRead, he] using hr
      rw [setReg_reg_ne _ _ _ _ (Ne.symm hra)]
      rfl
    next => rfl
  | jumpIfNotEqual ra =>
    obtain ⟨a, rfl, rfl⟩ := h
    refine ⟨_, ⟨a, rfl, rfl⟩, .inl ?_⟩
    rw [setReg_e]
    split
    next => rfl
    next he =>
      have hra : r ≠ a := by simpa [regsRead, he] using hr
      rw [setReg_reg_ne _ _ _ _ (Ne.symm hra)]
      rfl
  | loadImmediate rd imm8 =>
    obtain ⟨d, rfl, rfl⟩ := h
    refine ⟨_, ⟨d, rfl, rfl⟩, ?_⟩
    rw [regsWritten, fieldReg_field]
    exact (sameButFor_setReg s d r (zext imm8) v).advance 3
  | add ra rb =>
    obtain ⟨a, b, rfl, rfl, hv, rfl⟩ := h
    obtain ⟨hra, hrb⟩ : r ≠ a ∧ r ≠ b := by simpa [regsRead, addRegs] using hr
    have ha := setReg_reg_ne s r a v (Ne.symm hra)
    have hb := setReg_reg_ne s r b v (Ne.symm hrb)
    refine ⟨_, ⟨a, b, rfl, rfl, by rwa [ha, hb], rfl⟩, ?_⟩
    rw [ha, hb, regsWritten, addRegs, fieldReg_field]
    exact (sameButFor_setReg s a r _ v).advance 3
  | multiply ra rb =>
    obtain ⟨a, b, rfl, rfl, hv, rfl⟩ := h
    obtain ⟨hra, hrb⟩ : r ≠ a ∧ r ≠ b := by simpa [regsRead] using hr
    have ha := setReg_reg_ne s r a v (Ne.symm hra)
    have hb := setReg_reg_ne s r b v (Ne.symm hrb)
    refine ⟨_, ⟨a, b, rfl, rfl, by rwa [ha, hb], rfl⟩, ?_⟩
    rw [ha, hb, regsWritten, fieldReg_field]
    exact (sameButFor_setReg s a r _ v).advance 3
  | compare ra rb =>
    obtain ⟨a, b, rfl, rfl, rfl⟩ := h
    obtain ⟨hra, hrb⟩ : r ≠ a ∧ r ≠ b := by simpa [regsRead] using hr
    refine ⟨_, ⟨a, b, rfl, rfl, rfl⟩, .inl ?_⟩
    rw [setReg_reg_ne s r a v (Ne.symm hra), setReg_reg_ne s r b v (Ne.symm hrb)]
    rfl

/-- Settles O20: the instruction completes in both states, or raises the same fault in both. -/
theorem unreadRegistersDoNotMatter : Obligations.UnreadRegistersDoNotMatter := by
  intro i s t r v h hr
  have same (c : Cause) (hx : exec i s = .next (raise c s))
      (hx' : exec i (s.setReg r v) = .next (raise c (s.setReg r v))) :
      ∃ t', exec i (s.setReg r v) = .next t' ∧ SameButFor (regsWritten i) r v t t' := by
    obtain rfl := Host.Outcome.next.inj (hx.symm.trans h)
    exact ⟨_, hx', .inl rfl⟩
  rcases fields_cases i with ⟨f, hf, -⟩ | ⟨-, hwf, -⟩
  · exact same _ (exec_bad_field i s f hf) (exec_bad_field i _ f hf)
  · rcases completes_or_raises s hwf with ⟨u, hc⟩ | ⟨c, hc⟩
    · obtain rfl := Host.Outcome.next.inj ((exec_of_completes i s u hc).symm.trans h)
      obtain ⟨t', hc', hsame⟩ := completes_setReg v hc hr
      exact ⟨t', exec_of_completes i _ t' hc', hsame⟩
    · exact same c (exec_of_raises hc) (exec_of_raises (raises_setReg v hc hr))

/-! The program counter. -/

/-- After `SP` is decremented a register is as before, but for `SP` itself. -/
theorem reg_setSp_pred_toNat (s : State) (a : Reg) :
    ((s.setSp (s.sp - 1)).reg a).toNat = if a = .sp then s.sp - 1 else (s.reg a).toNat := by
  rw [setSp_reg]
  split
  · exact Nat.mod_eq_of_lt (Nat.lt_of_le_of_lt (Nat.sub_le _ _) (sp_lt s))
  · rfl

/-- Completing leaves `pc` as the table says, where the fetch succeeds. -/
theorem completes_pc {i : Instr} {s t : State} (hf : Fetchable s) (h : Completes i s t) :
    PcAsTabled i s t.pc.toNat := by
  cases i with
  | halt =>
    obtain rfl : t = s.setStatus .halted := h
    exact rfl
  | ret =>
    obtain ⟨-, rfl⟩ := h
    exact zext_toNat _
  | push ra =>
    obtain ⟨a, -, -, -, -, rfl⟩ := h
    exact advance_exact s 2 (by decide) hf
  | pop ra =>
    obtain ⟨a, -, -, rfl⟩ := h
    exact advance_exact s 2 (by decide) hf
  | printRegister ra =>
    obtain ⟨a, -, rfl⟩ := h
    exact advance_exact s 2 (by decide) hf
  | call ra =>
    obtain ⟨a, hra, -, -, -, rfl⟩ := h
    exact ⟨a, hra, rfl⟩
  | jump ra =>
    obtain ⟨a, hra, rfl⟩ := h
    exact ⟨a, hra, rfl⟩
  | jumpIfEqual ra =>
    obtain ⟨a, hra, rfl⟩ := h
    by_cases he : s.e
    · simpa [PcAsTabled, he] using ⟨a, hra, rfl⟩
    · simpa [PcAsTabled, he] using advance_exact s 2 (by decide) hf
  | jumpIfNotEqual ra =>
    obtain ⟨a, hra, rfl⟩ := h
    by_cases he : s.e
    · simpa [PcAsTabled, he] using advance_exact s 2 (by decide) hf
    · simpa [PcAsTabled, he] using ⟨a, hra, rfl⟩
  | loadImmediate rd imm8 =>
    obtain ⟨d, -, rfl⟩ := h
    exact advance_exact s 3 (by decide) hf
  | add ra rb | multiply ra rb =>
    obtain ⟨a, b, -, -, -, rfl⟩ := h
    exact advance_exact s 3 (by decide) hf
  | compare ra rb =>
    obtain ⟨a, b, -, -, rfl⟩ := h
    exact advance_exact s 3 (by decide) hf

/-- Settles O56: a step takes a fault, which keeps `pc`, or an instruction it fetched completes. -/
theorem pcUpdatedAsTabled : Obligations.PcUpdatedAsTabled := by
  intro s t h
  obtain ⟨hr, ⟨c, -, rfl⟩ | ⟨hf, i, hd, hc⟩⟩ := step_next_cases s t h
  · exact ⟨fun hst => absurd rfl hst, fun _ => rfl⟩
  · refine ⟨fun _ => ⟨i, hd, completes_pc hf hc⟩, fun hst => ?_⟩
    obtain ⟨-, ⟨-, hkept⟩ | ⟨-, rfl⟩⟩ := completes_run i s t hc
    · rw [hkept, hr] at hst
      cases hst
    · simp at hst

/-- A `pc` that came from a register is that register's value. -/
theorem PcFromRegister.exists_reg_eq {ra : Byte} {s t : State} (h : PcFromRegister ra s t.pc.toNat) :
    ∃ a : Reg, t.pc = s.reg a := by
  obtain ⟨a, -, hpc⟩ := h
  exact ⟨a, BitVec.eq_of_toNat_eq hpc⟩

/-- Settles O18: by the `pc` table, `pc` advances inside a fetched window, stays, is a byte, or is a register's value;
CALL's register is read after the decrement, so it may also be `SP - 1`, which addresses memory. -/
theorem pcAfterStepBounded : Obligations.PcAfterStepBounded := by
  intro s t h
  obtain ⟨-, ⟨c, -, rfl⟩ | ⟨hf, i, -, hc⟩⟩ := step_next_cases s t h
  · exact .inr (.inl rfl)
  have htab := completes_pc hf hc
  have advanced {n : Nat} (hn : n ≤ 3) (hpc : t.pc.toNat = s.pc.toNat + n) : t.pc.toNat ≤ Config.memSize := by
    unfold Fetchable at hf
    omega
  cases i with
  | halt => exact .inr (.inl (BitVec.eq_of_toNat_eq htab))
  | ret =>
    have hbyte : t.pc.toNat < 2 ^ 8 := htab ▸ (s.mem.read s.sp).isLt
    exact .inl (Nat.le_of_lt (Nat.lt_trans hbyte (by decide)))
  | push | pop | printRegister => exact .inl (advanced (by decide) htab)
  | loadImmediate | add | multiply | compare => exact .inl (advanced (by decide) htab)
  | jump ra => exact .inr (.inr htab.exists_reg_eq)
  | jumpIfEqual ra =>
    simp only [PcAsTabled] at htab
    split at htab
    · exact .inr (.inr htab.exists_reg_eq)
    · exact .inl (advanced (by decide) htab)
  | jumpIfNotEqual ra =>
    simp only [PcAsTabled] at htab
    split at htab
    · exact .inl (advanced (by decide) htab)
    · exact .inr (.inr htab.exists_reg_eq)
  | call ra =>
    obtain ⟨a, -, hpc⟩ := htab
    obtain ⟨-, -, -, h1, -⟩ := hc
    rw [reg_setSp_pred_toNat] at hpc
    split at hpc
    · exact .inl (hpc ▸ Nat.le_of_lt h1)
    · exact .inr (.inr ⟨a, BitVec.eq_of_toNat_eq hpc⟩)

end Sys2Proof.Machine
end

section
/-! Proofs for the instructions of the loop, the ALU and the branches: what each leaves, and its frame
(40_fetch_decode_execute.md R110 to R112; 41_alu.md; 43_compare_branch.md). -/

namespace Sys2Proof.Machine

/-! Shared frames. -/

/-- The frame of an instruction of three bytes that writes one register and falls through. -/
theorem setReg_advance_frame (s : State) (r : Reg) (v : Word) :
    let t := (s.setReg r v).advance 3
    PcAdvances 3 s t ∧ RegsKeptExcept [r] s t ∧ FlagsKept s t ∧ MemKept s t ∧ t.out = s.out ∧ RunKept s t :=
  ⟨advance_exact s 3 (by decide), regsKept_setReg s r v, ⟨rfl, rfl, rfl⟩, fun _ => rfl, rfl, rfl, rfl⟩

/-- The frame of an instruction that writes `pc` only. -/
theorem setPc_frame (s : State) (p : Word) :
    let t := s.setPc p
    RegsKeptExcept [] s t ∧ FlagsKept s t ∧ MemKept s t ∧ t.out = s.out ∧ RunKept s t :=
  ⟨fun _ _ => rfl, ⟨rfl, rfl, rfl⟩, fun _ => rfl, rfl, rfl, rfl⟩

/-- An instruction whose only or first register field is 8 or more takes that field's fault. -/
theorem exec_first_field_fault {i : Instr} {f : Byte} {fs : List Byte} (s : State) (hi : i.regFields = f :: fs)
    (hf : 8 ≤ f.toNat) : ∃ t, exec i s = .next t ∧ RegisterFieldFault f s t :=
  faultedAs_of_raise (exec_bad_field i s f (by rw [hi, firstBadField_cons, if_pos hf]))

/-- A window of a tag's opcode decodes to the instruction the tag assembles, if that is well-formed. -/
theorem decode_assemble (t : Tag) (a b : Byte) (hwf : (assemble t a b).wf = true) :
    decode ⟨t.opcode, a, b⟩ = .ok (assemble t a b) :=
  (decode_eq_ok_iff _ _).mpr ⟨by rw [assemble_tag], by rw [assemble_tag], hwf⟩

/-- An instruction is well-formed if its only register field is a register's. -/
theorem wf_of_one_field {i : Instr} {a : Reg} (hi : i.regFields = [a.field]) : i.wf = true := by
  simp [Instr.wf, hi, a.isLt]

/-! The loop. -/

/-- Settles O24: HALT's rule is one write of the status. -/
theorem haltStopsTheRun : Obligations.HaltStopsTheRun := fun s =>
  ⟨s.setStatus .halted, rfl, rfl, rfl, fun _ _ => rfl, ⟨rfl, rfl, rfl⟩, fun _ => rfl, rfl, rfl⟩

/-- Settles O25: a good field completes with the literal widened, a bad one faults. -/
theorem loadImmediateLoads : Obligations.LoadImmediateLoads := by
  intro rd imm8 s
  refine ⟨?_, fun hf => exec_first_field_fault s rfl hf⟩
  rintro d rfl
  refine ⟨decode_assemble .loadImmediate d.field imm8 (wf_of_one_field rfl), _,
    exec_of_completes (.loadImmediate d.field imm8) s _ ⟨d, rfl, rfl⟩, ?_, setReg_advance_frame s d (zext imm8)⟩
  rw [advance_reg, setReg_reg_same, zext_toNat]

/-- Settles O26: a good field completes with the value appended, a bad one faults. -/
theorem printRegisterEmits : Obligations.PrintRegisterEmits := by
  intro ra s
  refine ⟨?_, fun hf => exec_first_field_fault s rfl hf⟩
  rintro a rfl
  exact ⟨fun b => decode_assemble .printRegister a.field b (wf_of_one_field rfl), _,
    exec_of_completes (.printRegister a.field) s _ ⟨a, rfl, rfl⟩, rfl, advance_exact s 2 (by decide),
    fun _ _ => rfl, ⟨rfl, rfl, rfl⟩, fun _ => rfl, rfl, rfl⟩

/-! The ALU. -/

/-- What an ALU result leaves: the value, if it fits, in its register, and the frame. -/
theorem result_and_frame (s : State) (r : Reg) {v : Nat} (hv : v < 2 ^ Config.regBits) :
    let t := (s.setReg r (BitVec.ofNat Config.regBits v)).advance 3
    (t.reg r).toNat = v ∧
      PcAdvances 3 s t ∧ RegsKeptExcept [r] s t ∧ FlagsKept s t ∧ MemKept s t ∧ t.out = s.out ∧ RunKept s t := by
  refine ⟨?_, setReg_advance_frame s r _⟩
  rw [advance_reg, setReg_reg_same, BitVec.toNat_ofNat, Nat.mod_eq_of_lt hv]

/-- Settles O27: the exact sum fits the register and is written, or it is what the fault records. -/
theorem addAddsEncodedRegisters : Obligations.AddAddsEncodedRegisters := fun a b s =>
  ⟨fun hv => ⟨_, exec_of_completes (.add a.field b.field) s _ ⟨a, b, rfl, rfl, hv, rfl⟩, result_and_frame s a hv⟩,
   fun hv => faultedAs_of_raise (exec_of_raises (i := .add a.field b.field) ⟨a, b, rfl, rfl, hv, rfl⟩)⟩

/-- ADD in `REFERENCE_R0` mode is the ALU on register 0 (41_alu.md R131). -/
theorem addIn_referenceR0 (a b : Reg) (s : State) :
    addIn .referenceR0 a.field b.field s =
      settle s ((writeResult s .r0 ((s.reg .r0).toNat + (s.reg .r0).toNat)).map (State.advance · 3)) := by
  simp only [addIn, regOperand_field, ok_bind, aluRegisters_add]
  rfl

/-- Settles O28: the exact sum of register 0 with itself is written, or it is what the fault records. -/
theorem addReferenceModeDoublesR0 : Obligations.AddReferenceModeDoublesR0 := by
  intro a b s
  constructor
  · intro hv
    refine ⟨_, ?_, result_and_frame s .r0 hv⟩
    rw [addIn_referenceR0, writeResult_ok s _ _ hv]
    rfl
  · intro hv
    apply faultedAs_of_raise (c := .arithmeticOverflow ((s.reg .r0).toNat + (s.reg .r0).toNat))
    rw [addIn_referenceR0, writeResult_overflow s _ _ hv]
    rfl

/-- Settles O29: the exact product fits the register and is written, or it is what the fault records. -/
theorem multiplyMultiplies : Obligations.MultiplyMultiplies := fun a b s =>
  ⟨fun hv => ⟨_, exec_of_completes (.multiply a.field b.field) s _ ⟨a, b, rfl, rfl, hv, rfl⟩, result_and_frame s a hv⟩,
   fun hv => faultedAs_of_raise (exec_of_raises (i := .multiply a.field b.field) ⟨a, b, rfl, rfl, hv, rfl⟩)⟩

/-- Settles O30, by the three cases of the operation. -/
theorem aluOperations : Obligations.AluOperations := by
  intro operation a b
  refine ⟨?_, ?_, fun hadd hmul => (if_neg hadd).trans (if_neg hmul)⟩
  · rintro rfl
    rfl
  · rintro rfl
    rfl

/-! Compare and branch. -/

/-- Of three flags that say equal, below and above, exactly one is set. -/
theorem compareFlags_count (s : State) (m n : Nat) :
    [(s.compareFlags m n).e, (s.compareFlags m n).l, (s.compareFlags m n).g].count true = 1 := by
  simp only [State.compareFlags, setFlags_e, setFlags_l, setFlags_g]
  rcases Nat.lt_trichotomy m n with h | rfl | h
  · simp [h, Nat.ne_of_lt h, Nat.lt_asymm h]
  · simp
  · simp [h, Nat.ne_of_gt h, Nat.lt_asymm h]

/-- Settles O41: the flags are the three comparisons, decided. -/
theorem compareSetsAllFlags : Obligations.CompareSetsAllFlags := fun a b s =>
  ⟨_, exec_of_completes (.compare a.field b.field) s _ ⟨a, b, rfl, rfl, rfl⟩, decide_eq_true_iff, decide_eq_true_iff,
    decide_eq_true_iff, compareFlags_count s _ _, advance_exact s 3 (by decide), fun _ _ => rfl, fun _ => rfl, rfl, rfl,
    rfl⟩

/-- Settles O42: a good field completes with `pc` the register, a bad one faults. -/
theorem jumpJumps : Obligations.JumpJumps := by
  intro ra s
  refine ⟨?_, fun hf => exec_first_field_fault s rfl hf⟩
  rintro a rfl
  exact ⟨fun b => decode_assemble .jump a.field b (wf_of_one_field rfl), _,
    exec_of_completes (.jump a.field) s _ ⟨a, rfl, rfl⟩, rfl, setPc_frame s _⟩

/-- JUMP_IF_EQUAL completes whatever `E` is. -/
theorem exec_jumpIfEqual (a : Reg) (s : State) :
    exec (.jumpIfEqual a.field) s = .next (if s.e then s.setPc (s.reg a) else s.advance 2) :=
  exec_of_completes _ s _ ⟨a, rfl, rfl⟩

/-- JUMP_IF_NOT_EQUAL completes whatever `E` is. -/
theorem exec_jumpIfNotEqual (a : Reg) (s : State) :
    exec (.jumpIfNotEqual a.field) s = .next (if s.e then s.advance 2 else s.setPc (s.reg a)) :=
  exec_of_completes _ s _ ⟨a, rfl, rfl⟩

/-- Settles O43, by the two values of `E`. -/
theorem jumpIfEqualTestsE : Obligations.JumpIfEqualTestsE := by
  intro a s
  refine ⟨_, exec_jumpIfEqual a s, ?_⟩
  cases s.e with
  | true => exact ⟨fun _ => rfl, nofun, setPc_frame s _⟩
  | false => exact ⟨nofun, fun _ => advance_exact s 2 (by decide), setPc_frame s _⟩

/-- Settles O44, by the two values of `E`. -/
theorem jumpIfNotEqualTestsE : Obligations.JumpIfNotEqualTestsE := by
  intro a s
  refine ⟨_, exec_jumpIfNotEqual a s, ?_⟩
  cases s.e with
  | true => exact ⟨nofun, fun _ => advance_exact s 2 (by decide), setPc_frame s _⟩
  | false => exact ⟨fun _ => rfl, nofun, setPc_frame s _⟩

/-- An advance from inside memory or just past it is exact. -/
theorem advance_pc_toNat {s : State} (n : Nat) (hn : n ≤ 3) (h : s.pc.toNat ≤ Config.memSize) :
    (s.advance n).pc.toNat = s.pc.toNat + n := by
  rw [advance_pc, BitVec.toNat_ofNat]
  refine Nat.mod_eq_of_lt (Nat.lt_of_le_of_lt (Nat.add_le_add h hn) (by decide))

/-- Settles O45: the COMPARE leaves `E` as whether the registers are equal, and `pc` inside memory or just past it, so
that the advance of the jump not taken is exact. -/
theorem compareThenBranch : Obligations.CompareThenBranch := by
  intro a b c s hf
  obtain ⟨t, ht, he, -, -, -, hpc, hregs, -⟩ := compareSetsAllFlags a b s
  refine ⟨t, _, _, ht, exec_jumpIfEqual c t, exec_jumpIfNotEqual c t, ?_⟩
  have hadv : (t.advance 2).pc.toNat = t.pc.toNat + 2 :=
    advance_pc_toNat 2 (by decide) (by have := hpc hf; unfold Fetchable at hf; omega)
  have hc : t.reg c = s.reg c := hregs c (by simp)
  rw [BitVec.toNat_inj] at he
  by_cases heq : s.reg a = s.reg b
  · rw [if_pos heq, if_pos (he.mpr heq), if_pos (he.mpr heq)]
    exact ⟨hc, hadv⟩
  · rw [if_neg heq, if_neg (mt he.mp heq), if_neg (mt he.mp heq)]
    exact ⟨hadv, hc⟩

end Sys2Proof.Machine
end

section
/-! Proofs for the stack: PUSH, POP, CALL and RETURN, where they trap, and what their pairs restore
(42_stack.md R150 to R157; 20_memory.md R60). -/

namespace Sys2Proof.Machine

/-! A store at `SP - 1`, which PUSH and CALL share. -/

/-- The state after `SP` is decremented and `v` is stored at the new `SP`. -/
def State.stackStore (s : State) (v : Nat) : State :=
  (s.setSp (s.sp - 1)).setMem (s.mem.write (s.sp - 1) (BitVec.ofNat Config.cellBits v))

@[simp] theorem stackStore_sp (s : State) (v : Nat) : (s.stackStore v).sp = s.sp - 1 :=
  setSp_sp s _ (Nat.lt_of_le_of_lt (Nat.sub_le _ _) (sp_lt s))

theorem stackStore_read_slot (s : State) {v : Nat} (hv : v < 2 ^ Config.cellBits) :
    ((s.stackStore v).mem.read (s.sp - 1)).toNat = v := by
  simp [State.stackStore, Nat.mod_eq_of_lt hv]

theorem stackStore_memKeptExcept (s : State) (v : Nat) : MemKeptExcept (s.sp - 1) s (s.stackStore v) :=
  fun a ha => Memory.read_write_ne s.mem (s.sp - 1) a _ ha

/-- What a store at `SP - 1` changes, and its frame, in any state that differs from the stored one in `pc` only. -/
theorem stackStore_setPc_effect (s : State) (v : Nat) (p : Word) (h0 : s.sp ≠ 0) (h1 : s.sp - 1 < Config.memSize) :
    let t := (s.stackStore v).setPc p
    (∀ slot, pushSlot s = .ok slot → MemKeptExcept slot s t) ∧ RegsKeptExcept [.sp] s t ∧ FlagsKept s t ∧
      t.out = s.out ∧ RunKept s t := by
  refine ⟨fun slot hslot => ?_, regsKept_setSp s _, ⟨rfl, rfl, rfl⟩, rfl, rfl, rfl⟩
  obtain rfl : s.sp - 1 = slot := by simpa [pushSlot_ok s h0 h1] using hslot
  exact stackStore_memKeptExcept s v

/-! PUSH. -/

/-- PUSH, its checks passed, stores the register's value after the decrement and falls through. -/
theorem exec_push (a : Reg) (s : State) {v : Nat} (hval : v = if a = .sp then s.sp - 1 else (s.reg a).toNat)
    (h0 : s.sp ≠ 0) (h1 : s.sp - 1 < Config.memSize) (hv : v < 2 ^ Config.cellBits) :
    exec (.push a.field) s = .next ((s.stackStore v).advance 2) := by
  rw [← reg_setSp_pred_toNat] at hval
  subst hval
  exact exec_of_completes _ s _ ⟨a, rfl, h0, h1, hv, rfl⟩

/-- Settles O31: the checks pass, and the effect is the one store at `SP - 1`. -/
theorem pushPushes : Obligations.PushPushes := by
  intro a s v h0 h1 (hle : v ≤ 255)
  have hv : v < 2 ^ Config.cellBits := Nat.lt_succ_of_le hle
  refine ⟨pushSlot_ok s h0 h1, _, exec_push a s rfl h0 h1 hv, stackStore_sp s v, ?_,
    advance_exact s 2 (by decide), stackStore_setPc_effect s v _ h0 h1⟩
  rw [advance_mem, advance_sp, stackStore_sp]
  exact stackStore_read_slot s hv

/-- Settles O32: each clause is the first check that fails. -/
theorem pushFaults : Obligations.PushFaults := by
  intro a s v
  have hval : v = ((s.setSp (s.sp - 1)).reg a).toNat := (reg_setSp_pred_toNat s a).symm
  have raised (c : Cause) (hc : StackStoreRaises s v c) :
      ∃ t, exec (.push a.field) s = .next t ∧ FaultedAs c.kind c.kind.code c.detail s t :=
    faultedAs_of_raise (exec_of_raises (i := .push a.field) ⟨a, rfl, hval ▸ hc⟩)
  exact ⟨fun h0 => raised (.stackOverflow 0) (.inl ⟨h0, rfl⟩),
    fun h1 => raised (.outOfBoundsAccess .memory (s.sp - 1)) (.inr (.inl ⟨h1, rfl⟩)),
    fun h0 h1 hv => raised (.valueOutOfRange v) (.inr (.inr ⟨h0, h1, hv, rfl⟩))⟩

/-! CALL. -/

/-- CALL, its checks passed, stores its return address and goes to the register's value after the decrement. -/
theorem exec_call (a : Reg) (s : State) (h0 : s.sp ≠ 0) (h1 : s.sp - 1 < Config.memSize)
    (hv : s.pc.toNat + 2 < 2 ^ Config.cellBits) :
    exec (.call a.field) s =
      .next ((s.stackStore (s.pc.toNat + 2)).setPc ((s.setSp (s.sp - 1)).reg a)) :=
  exec_of_completes _ s _ ⟨a, rfl, h0, h1, hv, rfl⟩

/-- Settles O35: the checks pass, and the effect is the one store at `SP - 1` and the jump. -/
theorem callCalls : Obligations.CallCalls := by
  intro a s h0 h1 hle
  have hv : s.pc.toNat + 2 < 2 ^ Config.cellBits := Nat.lt_succ_of_le hle
  refine ⟨pushSlot_ok s h0 h1, _, exec_call a s h0 h1 hv, stackStore_sp s (s.pc.toNat + 2), ?_, reg_setSp_pred_toNat s a,
    stackStore_setPc_effect s _ _ h0 h1⟩
  rw [setPc_mem, setPc_sp, stackStore_sp]
  exact stackStore_read_slot s hv

/-- Settles O36: each clause is the first check that fails. -/
theorem callFaults : Obligations.CallFaults := by
  intro a s
  have raised (c : Cause) (hc : StackStoreRaises s (s.pc.toNat + 2) c) :
      ∃ t, exec (.call a.field) s = .next t ∧ FaultedAs c.kind c.kind.code c.detail s t :=
    faultedAs_of_raise (exec_of_raises (i := .call a.field) ⟨a, rfl, hc⟩)
  exact ⟨fun h0 => raised (.stackOverflow 0) (.inl ⟨h0, rfl⟩),
    fun h1 => raised (.outOfBoundsAccess .memory (s.sp - 1)) (.inr (.inl ⟨h1, rfl⟩)),
    fun h0 h1 hv => raised (.valueOutOfRange (s.pc.toNat + 2)) (.inr (.inr ⟨h0, h1, hv, rfl⟩))⟩

/-! POP and RETURN. -/

/-- A pointer inside memory, or a byte, can be incremented without a wrap. -/
theorem setSp_succ_sp (s : State) {n : Nat} (h : n < Config.memSize) : (s.setSp (n + 1)).sp = n + 1 :=
  setSp_sp s _ (Nat.lt_of_le_of_lt h (by decide))

theorem byte_lt_memSize (b : Byte) : b.toNat < Config.memSize := Nat.lt_trans b.isLt (by decide)

/-- Settles O33: the register is written before `SP` is incremented, so for R7 the increment is of the byte. -/
theorem popPops : Obligations.PopPops := by
  intro a s hs
  have hwritten : regsWritten (.pop a.field) = [a, .sp] := by
    rw [regsWritten, fieldReg_field]
    rfl
  refine ⟨_, exec_of_completes (.pop a.field) s _ ⟨a, rfl, hs, rfl⟩, fun ha => ?_, ?_, advance_exact s 2 (by decide),
    hwritten ▸ completes_regs ⟨a, rfl, hs, rfl⟩, ⟨rfl, rfl, rfl⟩, fun _ => rfl, rfl, rfl, rfl⟩
  · rw [advance_reg, advance_sp, setSp_reg, if_neg ha, setReg_reg_same, zext_toNat, setReg_sp_ne s a _ ha,
      setSp_succ_sp _ hs]
    exact ⟨rfl, rfl⟩
  · rintro rfl
    rw [advance_sp, setReg_sp_same, zext_toNat, setSp_succ_sp _ (byte_lt_memSize _)]

/-- Settles O37: the target is the byte at `SP`, and the increment does not wrap below the size of memory. -/
theorem returnReturns : Obligations.ReturnReturns := by
  intro s hs
  exact ⟨_, exec_of_completes .ret s _ ⟨hs, rfl⟩, zext_toNat _, setSp_succ_sp s hs, regsKept_setSp s _,
    ⟨rfl, rfl, rfl⟩, fun _ => rfl, rfl, rfl, rfl⟩

/-- Settles O34: both read through the same underflow check. -/
theorem popAndReturnUnderflow : Obligations.PopAndReturnUnderflow := fun a _ hs =>
  ⟨faultedAs_of_raise (exec_of_raises (i := .pop a.field) ⟨a, rfl, hs, rfl⟩),
   faultedAs_of_raise (exec_of_raises (i := .ret) ⟨hs, rfl⟩)⟩

/-! Pairs. -/

theorem RunKept.trans {s t u : State} (hst : RunKept s t) (htu : RunKept t u) : RunKept s u := by
  obtain ⟨hstatus, hfault⟩ := hst
  obtain ⟨hstatus', hfault'⟩ := htu
  exact ⟨hstatus'.trans hstatus, hfault'.trans hfault⟩

/-- Settles O38: the POP finds `SP` and the byte as the PUSH left them; `SP` comes back by the increment, the register
from the byte, and for R7 the byte is the decremented `SP` itself. -/
theorem pushThenPopRestores : Obligations.PushThenPopRestores := by
  intro a s h0 h1 hfits
  obtain ⟨hslot, t, ht, htsp, hbyte, -, htmem, htregs, htflags, htout, htrun⟩ :=
    pushPushes a s h0 h1 (by split at hfits <;> simp [*])
  obtain ⟨u, hu, hne, hsp, -, huregs, huflags, humem, huout, hurun⟩ := popPops a t (htsp ▸ h1)
  have husp : u.sp = s.sp := by
    by_cases ha : a = .sp
    · rw [hsp ha, hbyte, if_pos ha]
      omega
    · rw [(hne ha).2, htsp]
      omega
  refine ⟨t, u, ht, hu, fun r _ => ?_, htflags.trans huflags, fun b hb => ?_, fun ha => ?_, huout.trans htout,
    htrun.trans hurun⟩
  · by_cases hrsp : r = .sp
    · subst hrsp
      exact BitVec.eq_of_toNat_eq husp
    by_cases hra : r = a
    · subst hra
      apply BitVec.eq_of_toNat_eq
      rw [(hne hrsp).1, hbyte, if_neg hrsp]
    · rw [huregs r (by simp [hra, hrsp]), htregs r (by simp [hrsp])]
  · rw [humem b, htmem _ hslot b hb]
  · rw [humem, ← htsp, hbyte, if_neg ha]

/-- Settles O39: the RETURN takes its target from the byte the CALL stored, and undoes the decrement. -/
theorem callThenReturnResumes : Obligations.CallThenReturnResumes := by
  intro a s h0 h1 hle
  obtain ⟨-, t, ht, htsp, hbyte, -⟩ := callCalls a s h0 h1 hle
  refine ⟨t, ht, fun u husp hubyte => ?_⟩
  obtain ⟨v, hv, hpc, hvsp, -⟩ := returnReturns u (by rwa [husp, htsp])
  refine ⟨v, hv, by rw [hpc, hubyte, hbyte], ?_⟩
  rw [hvsp, husp, htsp]
  omega

/-- A PUSH that leaves RUNNING as it was passed its checks. -/
theorem push_checks_of_running {a : Reg} {s t : State} (h : exec (.push a.field) s = .next t)
    (hr : t.status = .running) :
    s.sp ≠ 0 ∧ s.sp - 1 < Config.memSize ∧ (if a = .sp then s.sp - 1 else (s.reg a).toNat) < 2 ^ Config.cellBits := by
  rcases exec_cases (.push a.field) s with ⟨t', hc, -⟩ | ⟨c, -, hx⟩
  · obtain ⟨b, hb, h0, h1, hv, -⟩ := hc
    obtain rfl := field_injective a b hb
    exact ⟨h0, h1, by rwa [← reg_setSp_pred_toNat]⟩
  · obtain rfl := Host.Outcome.next.inj (hx.symm.trans h)
    simp at hr

/-- Settles O40: the fetch at the new `SP` reads the byte the PUSH stored there. -/
theorem pushedByteIsFetched : Obligations.PushedByteIsFetched := by
  intro a s t _ h hr hwindow
  obtain ⟨h0, h1, hv⟩ := push_checks_of_running h hr
  obtain ⟨-, t', ht', -, hbyte, -⟩ := pushPushes a s h0 h1 (Nat.le_of_lt_succ hv)
  obtain rfl : t' = t := Host.Outcome.next.inj (ht'.symm.trans h)
  exact ⟨_, fetchWindow_ok (t'.setPc (t'.reg .sp)) hwindow, hbyte⟩

end Sys2Proof.Machine
end

section
/-! Proofs for memory as canonical data, and for the host's operations
(10_state.md R35; 20_memory.md R51; 70_reset_and_hazards.md R240 to R247). -/

namespace Sys2Proof.Machine

/-! Memory. -/

/-- An address below every listed one reads as unlisted. -/
theorem Memory.read_of_above {m : Memory} {a : Nat} (h : ∀ c ∈ m, a < c.1) : m.read a = Memory.unlisted := by
  induction m with
  | nil => rfl
  | cons c m ih =>
    obtain ⟨b, v⟩ := c
    have hb : b ≠ a := Nat.ne_of_gt (h (b, v) (by simp))
    rw [Memory.read_cons, if_neg hb]
    exact ih fun c hc => h c (by simp [hc])

/-- A canonical memory whose first address is `a` is told apart, by reading `a`, from one whose addresses are above. -/
theorem Memory.read_head_ne {a : Nat} {v : Byte} {m m' : Memory} (h : Memory.wf ((a, v) :: m) = true)
    (h' : ∀ c ∈ m', a < c.1) : Memory.read ((a, v) :: m) a ≠ m'.read a := by
  obtain ⟨hv, -, -⟩ := (Memory.wf_cons a v m).mp h
  rwa [Memory.read_cons, if_pos rfl, Memory.read_of_above h']

/-- The addresses of a canonical memory are at or above its first. -/
theorem Memory.head_lt_of_wf {a b : Nat} {w : Byte} {m : Memory} (h : Memory.wf ((b, w) :: m) = true) (hab : a < b) :
    ∀ c ∈ ((b, w) :: m : Memory), a < c.1 := by
  obtain ⟨-, hb, -⟩ := (Memory.wf_cons b w m).mp h
  intro c hc
  rcases List.mem_cons.mp hc with rfl | hc
  · exact hab
  · exact Nat.lt_trans hab (hb c hc)

/-- Settles O49, by induction on both lists: their first cells agree, or a read tells them apart, and so do the
rests. -/
theorem equalReadsAreEqualMemories : Obligations.EqualReadsAreEqualMemories := by
  intro m
  induction m with
  | nil =>
    intro m' _ hm' h
    cases m' with
    | nil => rfl
    | cons c m' => exact absurd (h c.1).symm (Memory.read_head_ne hm' (by simp))
  | cons c m ih =>
    obtain ⟨a, v⟩ := c
    intro m' hm hm' h
    cases m' with
    | nil => exact absurd (h a) (Memory.read_head_ne hm (by simp))
    | cons d m' =>
      obtain ⟨b, w⟩ := d
      rcases Nat.lt_trichotomy a b with hab | rfl | hab
      · exact absurd (h a) (Memory.read_head_ne hm (Memory.head_lt_of_wf hm' hab))
      · obtain ⟨-, ha, hwf⟩ := (Memory.wf_cons a v m).mp hm
        obtain ⟨-, ha', hwf'⟩ := (Memory.wf_cons a w m').mp hm'
        have hvw : v = w := by simpa [Memory.read_cons] using h a
        have hrest : ∀ x, Memory.read m x = Memory.read m' x := by
          intro x
          by_cases hx : a = x
          · rw [← hx, Memory.read_of_above ha, Memory.read_of_above ha']
          · simpa [Memory.read_cons, hx] using h x
        rw [hvw, ih m' hwf hwf' hrest]
      · exact absurd (h b).symm (Memory.read_head_ne hm' (Memory.head_lt_of_wf hm hab))

/-- What storing one byte changes, and its frame. -/
theorem setMem_write_effect (s : State) (addr : Nat) {v : Nat} (hv : v < 2 ^ Config.cellBits) :
    let t := s.setMem (s.mem.write addr (BitVec.ofNat Config.cellBits v))
    (t.mem.read addr).toNat = v ∧ MemKeptExcept addr s t ∧ RegsKeptExcept [] s t ∧ FlagsKept s t ∧ t.pc = s.pc ∧
      t.out = s.out ∧ RunKept s t := by
  refine ⟨?_, fun a ha => Memory.read_write_ne s.mem addr a _ ha, fun _ _ => rfl, ⟨rfl, rfl, rfl⟩, rfl, rfl, rfl, rfl⟩
  rw [setMem_mem, Memory.read_write_same, BitVec.toNat_ofNat, Nat.mod_eq_of_lt hv]

/-- Settles O48: the address is checked before the value. -/
theorem memWriteIsChecked : Obligations.MemWriteIsChecked := by
  intro s addr v
  refine ⟨fun haddr hv => ?_, fun haddr => memWrite_address s addr v haddr, fun haddr hv =>
    memWrite_value s addr v haddr hv⟩
  have hv' : v < 2 ^ Config.cellBits := Nat.lt_succ_of_le hv
  exact ⟨_, memWrite_ok s addr v haddr hv', setMem_write_effect s addr hv'⟩

/-! The host's operations. -/

/-- Settles O50: reset is a constant, whose fields are read off. -/
theorem resetConstructs : Obligations.ResetConstructs := fun _ =>
  ⟨rfl, by decide, rfl, rfl, rfl, rfl, rfl, fun _ _ => rfl, rfl, rfl, rfl⟩

/-- An admitted load stores its byte. -/
theorem hostLoad_ok {s : State} {addr byte : Nat} (hl : s.status = .loading) (haddr : addr < Config.baseMemSize)
    (hb : byte < 2 ^ Config.cellBits) :
    hostLoad addr byte s = .next (s.setMem (s.mem.write addr (BitVec.ofNat Config.cellBits byte))) :=
  if_pos ⟨hl, haddr, hb⟩

/-- Settles O51: each of the three conditions of R242 admits or refuses. -/
theorem loadWritesWhenAdmitted : Obligations.LoadWritesWhenAdmitted := by
  intro s addr byte
  constructor
  · intro hl haddr hb
    have hb' : byte < 2 ^ Config.cellBits := Nat.lt_succ_of_le hb
    exact ⟨_, hostLoad_ok hl haddr hb', setMem_write_effect s addr hb'⟩
  · intro h
    apply if_neg
    rintro ⟨hl, haddr, hb⟩
    rcases h with h | h | h
    · exact h hl
    · exact Nat.not_le.mpr haddr h
    · exact Nat.not_le.mpr hb h

/-- What memory reads after the image was stored at consecutive addresses from `addr` on: the image, and everything
else as before. -/
def ImageStands (addr : Nat) (image : List Nat) (s t : State) : Prop :=
  (∀ k (h : k < image.length), (t.mem.read (addr + k)).toNat = image[k]) ∧
  (∀ a, a < addr ∨ addr + image.length ≤ a → t.mem.read a = s.mem.read a)

/-- Loading an image that fits the base capacity is admitted whole. -/
theorem hostLoadImage_ok (image : List Nat) (addr : Nat) (s : State) (hl : s.status = .loading)
    (hfits : addr + image.length ≤ Config.baseMemSize) (hb : ∀ b ∈ image, b ≤ 255) :
    ∃ t, hostLoadImage addr image s = .next t ∧ ImageStands addr image s t := by
  induction image generalizing addr s with
  | nil => exact ⟨s, rfl, fun _ h => absurd h (Nat.not_lt_zero _), fun _ _ => rfl⟩
  | cons b image ih =>
    rw [List.length_cons] at hfits
    have hb0 : b < 2 ^ Config.cellBits := Nat.lt_succ_of_le (hb b (by simp))
    obtain ⟨hread, hkept, -⟩ := setMem_write_effect s addr hb0
    obtain ⟨t, ht, himage, hrest⟩ :=
      ih (addr + 1) (s.setMem (s.mem.write addr (BitVec.ofNat Config.cellBits b))) hl (by omega)
        fun b' hb' => hb b' (by simp [hb'])
    refine ⟨t, ?_, fun k hk => ?_, fun a ha => ?_⟩
    · rw [hostLoadImage, hostLoad_ok hl (by omega) hb0]
      exact ht
    · cases k with
      | zero => rw [Nat.add_zero, hrest addr (.inl (Nat.lt_succ_self _)), hread, List.getElem_cons_zero]
      | succ k =>
        rw [show addr + (k + 1) = addr + 1 + k by omega, List.getElem_cons_succ]
        exact himage k (Nat.lt_of_succ_lt_succ hk)
    · rw [List.length_cons] at ha
      rw [hrest a (by omega), hkept a (by omega)]

/-- Settles O52: from reset every cell beyond the image still reads 0. -/
theorem loadedImageStandsInMemory : Obligations.LoadedImageStandsInMemory := by
  intro image hlen hb
  obtain ⟨t, ht, himage, hrest⟩ := hostLoadImage_ok image 0 State.reset rfl (by rwa [Nat.zero_add]) hb
  refine ⟨t, ht, fun a ha => ?_, fun a ha _ => ?_⟩
  · rw [← himage a ha, Nat.zero_add]
  · rw [hrest a (.inr (by rwa [Nat.zero_add]))]
    rfl

theorem startRun_read (s : State) (a : Nat) :
    (startRun s).mem.read a = if 256 ≤ a ∧ a < 512 then 0 else s.mem.read a :=
  Memory.read_clear s.mem 256 512 a

theorem hostStart_ok {s : State} (hl : s.status = .loading) : hostStart s = .next (startRun s) := if_pos hl

/-- Settles O53: the zero fill touches cells 256 to 511 only. -/
theorem startBeginsTheRun : Obligations.StartBeginsTheRun := by
  intro s hl
  refine ⟨_, hostStart_ok hl, rfl, setSp_sp _ 511 (by decide), rfl, fun a h h' => ?_, fun a h => ?_,
    regsKept_setSp s 511, ⟨rfl, rfl, rfl⟩, rfl, rfl⟩
  · rw [startRun_read, if_pos ⟨h, h'⟩]
  · rw [startRun_read, if_neg fun ⟨h', _⟩ => Nat.not_le.mpr h h']

/-- Settles O54: `start` asks for LOADING and nothing else. -/
theorem startRefusedOutsideLoading : Obligations.StartRefusedOutsideLoading := fun _ hl => if_neg hl

/-! Placing an instruction. -/

@[simp] theorem madeRunning_status (s : State) : s.madeRunning.status = .running := by
  cases hs : s.status <;> simp [State.madeRunning, startRun, hs]

@[simp] theorem withFetchablePc_status (s : State) : s.withFetchablePc.status = s.status := by
  unfold State.withFetchablePc
  split <;> rfl

theorem fetchable_withFetchablePc (s : State) : Fetchable s.withFetchablePc := by
  unfold State.withFetchablePc
  split
  · assumption
  · exact (by decide : 0 + 2 < Config.memSize)

/-- The window placed at `pc` is the window at `pc`. -/
theorem windowAt_placeWindow (s : State) (w : Window) : windowAt (s.placeWindow w) = w := by
  simp [windowAt, State.placeWindow, Memory.read_write]

/-- Settles O55: the placed state is running, its window inside memory and the placed one. -/
theorem placedInstructionRunsNext : Obligations.PlacedInstructionRunsNext := by
  intro s nbits w i hi
  have hd : decode (windowOfTableWord nbits w) = .ok i := by
    unfold decodeTableWord at hi
    cases hd : decode (windowOfTableWord nbits w) with
    | error e => simp [hd, Except.toOption] at hi
    | ok j => simpa [hd, Except.toOption] using hi
  refine stepRunsDecodedInstruction _ i ?_ (fetchable_withFetchablePc s.madeRunning) ?_
  · exact (withFetchablePc_status _).trans (madeRunning_status s)
  · rw [State.withFetchWord, windowAt_placeWindow, hd]

end Sys2Proof.Machine
end

section
/-! Proofs for runs under fuel (00_scope.md R14; 40_fetch_decode_execute.md R107; 70_reset_and_hazards.md R249). -/

namespace Sys2Proof.Machine

/-- How a run from a running state comes out, with what holds of the state it comes out in. -/
def RunComesOut (o : RunOutcome) (t : State) : Prop :=
  (o = .halted t ∧ t.status = .halted ∧ Fetchable t ∧ t.mem.read t.pc.toNat = 1) ∨
  (o = .faulted t ∧ t.status = .faulted ∧ ∃ r, t.fault = some r ∧ r.fpc = t.pc) ∨
  (o = .outOfFuel t ∧ t.status = .running)

/-- A run from a running state ends at a HALT, in a fault, or with its fuel, by induction on the fuel. -/
theorem runUnder_comesOut (fuel : Nat) {s : State} (hr : s.status = .running) :
    ∃ t, RunComesOut (runUnder fuel s) t := by
  induction fuel generalizing s with
  | zero => exact ⟨s, .inr (.inr ⟨runUnder_no_fuel s hr, hr⟩)⟩
  | succ fuel ih =>
    obtain ⟨t, h⟩ := step_total hr
    rw [runUnder_step fuel s t h]
    rcases step_status h with hst | ⟨rfl, hf, hop⟩ | ⟨c, -, rfl⟩
    · exact ih hst
    · exact ⟨_, .inl ⟨runUnder_halted fuel _ rfl, rfl, hf, hop⟩⟩
    · exact ⟨_, .inr (.inl ⟨runUnder_faulted fuel _ rfl, rfl, _, rfl, rfl⟩)⟩

/-- Settles O57: the run from LOADING is the run of the state `start` leaves, and elsewhere `start` refuses. -/
theorem runEndsHaltedOrFaulted : Obligations.RunEndsHaltedOrFaulted := fun fuel s =>
  ⟨runUnder_comesOut fuel, fun hl => ⟨_, hostStart_ok hl, rfl, hostRun_loading fuel s hl⟩, hostRun_refused fuel s⟩

/-- Some number of steps up to `fuel` leads from `s` to `t`, where the status is `st`. -/
def EndsWithin (fuel : Nat) (s t : State) (st : Status) : Prop := ∃ n, n ≤ fuel ∧ StepsTo n s t ∧ t.status = st

/-- Where no step exists, only the state itself is reached. -/
theorem endsWithin_stopped {s : State} (fuel : Nat) (t : State) (st : Status) (hs : s.status ≠ .running) :
    EndsWithin fuel s t st ↔ s = t ∧ s.status = st := by
  have hself : EndsWithin fuel s t st ↔ s = t ∧ t.status = st := by
    simp [EndsWithin, stepsTo_stopped _ s t hs]
  rw [hself]
  exact and_congr_right fun h => by rw [h]

/-- Where no step exists, no step sequence leads to a running state. -/
theorem not_stepsTo_running {s : State} (n : Nat) (t : State) (hs : s.status ≠ .running) :
    ¬(StepsTo n s t ∧ t.status = .running) := by
  rintro ⟨hsteps, ht⟩
  obtain ⟨-, rfl⟩ := (stepsTo_stopped n s t hs).mp hsteps
  exact hs ht

/-- A running state has not ended. -/
theorem endsWithin_zero_running {s : State} (t : State) {st : Status} (hr : s.status = .running) (hst : st ≠ .running) :
    ¬ EndsWithin 0 s t st := by
  rintro ⟨n, hn, hsteps, ht⟩
  obtain rfl := Nat.le_zero.mp hn
  obtain rfl := (stepsTo_zero s t).mp hsteps
  exact hst (ht.symm.trans hr)

/-- A running state ends within one step more than the state its step leaves. -/
theorem endsWithin_succ {s u : State} (fuel : Nat) (t : State) {st : Status} (h : step s = .next u)
    (hst : st ≠ .running) : EndsWithin (fuel + 1) s t st ↔ EndsWithin fuel u t st := by
  constructor
  · rintro ⟨n, hn, hsteps, ht⟩
    cases n with
    | zero =>
      have hr := (step_next_cases s u h).1
      exact absurd ⟨0, Nat.le_refl 0, hsteps, ht⟩ (endsWithin_zero_running t hr hst)
    | succ n => exact ⟨n, Nat.le_of_succ_le_succ hn, (stepsTo_succ n s u t h).mp hsteps, ht⟩
  · rintro ⟨n, hn, hsteps, ht⟩
    exact ⟨n + 1, Nat.succ_le_succ hn, (stepsTo_succ n s u t h).mpr hsteps, ht⟩

/-- What `RunIsTheStepSequence` says of one run. -/
def RunMatchesSteps (fuel : Nat) (s t : State) : Prop :=
  (runUnder fuel s = .outOfFuel t ↔ StepsTo fuel s t ∧ t.status = .running) ∧
  (runUnder fuel s = .halted t ↔ EndsWithin fuel s t .halted) ∧
  (runUnder fuel s = .faulted t ↔ EndsWithin fuel s t .faulted)

/-- A run from a state in which no step exists matches the empty step sequence. -/
theorem runMatchesSteps_stopped (fuel : Nat) (s t : State) (hs : s.status ≠ .running) : RunMatchesSteps fuel s t := by
  unfold RunMatchesSteps
  rw [endsWithin_stopped fuel t _ hs, endsWithin_stopped fuel t _ hs, iff_false_intro (not_stepsTo_running fuel t hs)]
  cases hst : s.status with
  | running => exact absurd hst hs
  | loading => simp [runUnder_loading fuel s hst]
  | halted => simp [runUnder_halted fuel s hst]
  | faulted => simp [runUnder_faulted fuel s hst]

/-- A run matches the step sequence from any state, by induction on the fuel. -/
theorem runMatchesSteps (fuel : Nat) (s t : State) : RunMatchesSteps fuel s t := by
  induction fuel generalizing s with
  | zero =>
    by_cases hr : s.status = .running
    · refine ⟨?_, ?_, ?_⟩
      · rw [runUnder_no_fuel s hr, stepsTo_zero, RunOutcome.outOfFuel.injEq]
        exact ⟨fun h => ⟨h, h ▸ hr⟩, And.left⟩
      · simp [runUnder_no_fuel s hr, endsWithin_zero_running t hr]
      · simp [runUnder_no_fuel s hr, endsWithin_zero_running t hr]
    · exact runMatchesSteps_stopped 0 s t hr
  | succ fuel ih =>
    by_cases hr : s.status = .running
    · obtain ⟨u, h⟩ := step_total hr
      unfold RunMatchesSteps
      rw [runUnder_step fuel s u h, stepsTo_succ fuel s u t h, endsWithin_succ fuel t h (by simp),
        endsWithin_succ fuel t h (by simp)]
      exact ih u
    · exact runMatchesSteps_stopped (fuel + 1) s t hr

/-- Settles O58: the match holds of every state, a running one included. -/
theorem runIsTheStepSequence : Obligations.RunIsTheStepSequence := fun fuel s t _ => runMatchesSteps fuel s t

/-- Settles O59, by induction on the fuel: the step is the JUMP, which leaves the very state it found. -/
theorem jumpToItselfNeverEnds : Obligations.JumpToItselfNeverEnds := by
  intro a s hr hf hd hpc fuel
  have hstep : step s = .next s := by
    rw [stepRunsDecodedInstruction s _ hr hf hd]
    exact exec_of_completes _ s s ⟨a, rfl, by rw [hpc]; rfl⟩
  induction fuel with
  | zero => exact runUnder_no_fuel s hr
  | succ fuel ih => rw [runUnder_step fuel s s hstep, ih]

end Sys2Proof.Machine
end
